-- ==== Sys2Proof/Word.lean ====
section
/-! DEFINITION. The word types of the block and the readings of a word (00_scope.md R7 to R9). -/

namespace Sys2Proof

/-- XLEN: a register, a memory cell and the pc are 32-bit patterns (R7, R9, 10_state.md R35). -/
abbrev Word := BitVec 32

/-- One byte lane of a cell (20_memory.md R54). -/
abbrev Byte := BitVec 8

/-- NREG: a register index, 0 to 31 (R7, R10). -/
abbrev Reg := Fin 32

/-- The 5-bit shift count (30_encoding.md R74). -/
abbrev Shamt := BitVec 5

/-- The raw 16-bit immediate pattern (30_encoding.md R75). -/
abbrev Imm := BitVec 16

/-- The raw 26-bit jump address pattern (30_encoding.md R76). -/
abbrev Addr26 := BitVec 26

/-- `s32` of R9: the word read as a two's-complement integer. -/
abbrev s32 (w : Word) : Int := w.toInt

/-- `u32` of R9: the word read as an unsigned integer. -/
abbrev u32 (w : Word) : Nat := w.toNat

/-- `wrap32` of R9: the one word whose unsigned value is the integer modulo 2^32. -/
abbrev wrap32 (n : Int) : Word := BitVec.ofInt 32 n

end Sys2Proof
end

