-- ==== Sys2Proof/Syntax.lean ====
section
/-! DEFINITION. The syntax of the block: formats, fields, the twelve instructions of spec/opcode_table.json, and the
errors and events the block reports (30_encoding.md, 60_exceptions.md R201, 00_scope.md R17). -/

namespace Sys2Proof

/-- The three instruction formats, and no other (30_encoding.md R71). -/
inductive Format where
  | r
  | i
  | j
deriving DecidableEq, Repr

/-- The fields as the field shifter takes them out of a word, unsigned values not yet checked (R74 to R76). -/
inductive RawFields where
  | r (rs rt rd shamt funct : Nat)
  | i (rs rt imm : Nat)
  | j (addr26 : Nat)
deriving DecidableEq, Repr

/-- The fields after the register-index check of R78. -/
inductive Fields where
  | r (rs rt rd : Reg) (shamt : Shamt) (funct : BitVec 6)
  | i (rs rt : Reg) (imm : Imm)
  | j (addr26 : Addr26)
deriving DecidableEq, Repr

/-- The instructions of R80, one constructor per row of spec/opcode_table.json. An instruction carries every field of
its word, the ignored ones last (R81): the Fields event of R88 reports those too. -/
inductive Instr where
  | add (rd rs rt : Reg) (shamt : Shamt)
  | sub (rd rs rt : Reg) (shamt : Shamt)
  | and (rd rs rt : Reg) (shamt : Shamt)
  | or (rd rs rt : Reg) (shamt : Shamt)
  | xor (rd rs rt : Reg) (shamt : Shamt)
  | sll (rd rt : Reg) (shamt : Shamt) (rs : Reg)
  | srl (rd rt : Reg) (shamt : Shamt) (rs : Reg)
  | syscall (rs rt rd : Reg) (shamt : Shamt)
  | lw (rt rs : Reg) (imm : Imm)
  | sw (rt rs : Reg) (imm : Imm)
  | beq (rs rt : Reg) (imm : Imm)
  | j (addr26 : Addr26)
deriving DecidableEq, Repr

/-- The assembly forms of 30_encoding.md R86 and the pseudo-instruction of R87, with their operands as numbers. The
spec gives no grammar for the text around them; the notation has no meaning beyond the fields (92_eei_decisions.md
D29). -/
inductive Asm where
  | add (rd rs rt : Reg)
  | sub (rd rs rt : Reg)
  | and (rd rs rt : Reg)
  | or (rd rs rt : Reg)
  | xor (rd rs rt : Reg)
  | sll (rd rt : Reg) (shamt : Shamt)
  | srl (rd rt : Reg) (shamt : Shamt)
  | syscall
  | lw (rt : Reg) (off : Int) (rs : Reg)
  | sw (rt : Reg) (off : Int) (rs : Reg)
  | beq (rs rt : Reg) (n : Int)
  | j (target : Nat)
  | nop
deriving DecidableEq, Repr

/-- The register-index fields that R78 re-validates. -/
inductive FieldName where
  | rs
  | rt
  | rd
deriving DecidableEq, Repr

/-- What an InputFormatError records (60_exceptions.md R201, R222; 43_syscall.md R179): the line and, for a hex line,
its length if that is wrong, else the first offending character and its position; for a service-5 line the text. -/
inductive InputFormatInfo where
  | wrongLength (line : List Char) (length : Nat)
  | badCharacter (line : List Char) (c : Char) (position : Nat)
  | notInteger (text : List Char)
deriving DecidableEq, Repr

/-- The value an AlignmentError records (41_loadstore.md R131). -/
inductive AlignmentInfo where
  | imm (imm : Imm)
  | ea (ea : Int)
deriving DecidableEq, Repr

/-- The errors of 60_exceptions.md R201, each with the information that table records (log 13). -/
inductive Error where
  | inputFormat (info : InputFormatInfo)
  | unsupportedOpcode (opcode : Nat) (word : Word)
  | unsupportedFunct (funct : Nat) (word : Word)
  | fieldRange (field : FieldName) (value : Nat)
  | alignment (info : AlignmentInfo)
  | outOfBounds (address : Int)
  | unsupportedSyscall (code : Int)
deriving DecidableEq, Repr

/-- The output events of 00_scope.md R17. -/
inductive Event where
  | diag (fmt : Format)
  | fields (rs rt rd : Reg) (shamt : Shamt) (funct : BitVec 6)
  | outInt (v : Int)
  | outStr (bytes : List Byte)
  | err (e : Error)
deriving DecidableEq, Repr

end Sys2Proof
end

