-- ==== Sys2Proof/Config.lean ====
section
/-! DEFINITION. The implementation parameters of 00_scope.md R7, the launch parameters of
70_reset_and_hazards.md R240, and the host texts the spec leaves open. -/

namespace Sys2Proof

/-- LS_OFFSET_EXT: how lw and sw extend the 16-bit offset (R7; 92_eei_decisions.md D4). -/
inductive LsOffsetExt where
  | sign
  | zero
deriving DecidableEq, Repr

/-- JUMP_MODE: the target rule of j (R7; D8). -/
inductive JumpMode where
  | full
  | simplified
deriving DecidableEq, Repr

/-- STR_BYTE_ORDER: the byte lanes of a word for syscall 4 (R7; D10). -/
inductive ByteOrder where
  | little
  | big
deriving DecidableEq, Repr

/-- The parameters that R7 makes arguments of a model and that stay fixed for a model instance (10_state.md R42).
State carries one, so a statement over all states is one over all parameters (log 1). -/
structure Config where
  /-- MEM_WORDS: the number of 32-bit memory cells. -/
  memWords     : Nat
  lsOffsetExt  : LsOffsetExt
  jumpMode     : JumpMode
  /-- ALU_EXT: whether sub, and, or, xor, sll and srl decode. -/
  aluExt       : Bool
  strByteOrder : ByteOrder
deriving DecidableEq, Repr

/-- The bound R7 puts on MEM_WORDS. -/
abbrev Config.wf (c : Config) : Prop := 1 ≤ c.memWords ∧ c.memWords ≤ 2 ^ 28

/-- The reference values of R7 (log 3). MEM_WORDS has none: DESIGN CHOICE 64, the value R7 names for the test
vectors (log 2, unsafe). -/
def Config.reference : Config :=
  { memWords := 64, lsOffsetExt := .sign, jumpMode := .full, aluExt := true, strByteOrder := .little }

/-- The values of a launch: init_regs, init_mem and init_pc (R7, R240). `initRegs` at index 0 is not used, since
register 0 is 0 at all times; a cell past the end of `initMem` starts at 0. -/
structure Launch where
  initRegs : Vector Word 32
  initMem  : List Word
  initPc   : Word
deriving DecidableEq, Repr

/-- The launches R240 allows: init_pc a multiple of 4, and no more initial cells than the memory has. -/
abbrev Launch.wf (c : Config) (l : Launch) : Prop := l.initPc.toNat % 4 = 0 ∧ l.initMem.length ≤ c.memWords

/-- The reference launch of R7: every register, every cell and the pc 0. -/
def Launch.reference : Launch := { initRegs := Vector.replicate 32 0, initMem := [], initPc := 0 }

/-- FREE VALUE (log 15): the text of the startup banner, which the spec says is not given (R243). -/
opaque Config.bannerText : List Byte

/-- FREE VALUE (log 15): the text the host gives a format diagnostic (60_exceptions.md R228). -/
opaque Config.diagText : Format → List Byte

/-- FREE VALUE (log 15): the text the host gives a field summary (R228). -/
opaque Config.fieldsText : (rs rt rd : Reg) → Shamt → (funct : BitVec 6) → List Byte

/-- FREE VALUE (log 15): the text the host gives an error message (R202, R228). -/
opaque Config.errText : Error → List Byte

end Sys2Proof
end

