-- ==== Sys2Proof/WellFormed.lean ====
section
/-! DEFINITION. Which terms of Instr are instructions of a block with the given parameters. The ranges of the fields
(30_encoding.md R74 to R76, R78) are in the types of Instr; what is left to check is ALU_EXT. -/

namespace Sys2Proof

/-- The rows of R80 marked ALU_EXT (92_eei_decisions.md D13). -/
def Instr.needsAluExt : Instr → Bool
  | .add _ _ _ _     => false
  | .sub _ _ _ _     => true
  | .and _ _ _ _     => true
  | .or _ _ _ _      => true
  | .xor _ _ _ _     => true
  | .sll _ _ _ _     => true
  | .srl _ _ _ _     => true
  | .syscall _ _ _ _ => false
  | .lw _ _ _        => false
  | .sw _ _ _        => false
  | .beq _ _ _       => false
  | .j _             => false

/-- An instruction exists in a block unless its row needs ALU_EXT and ALU_EXT is false (R80, 40_alu.md R107). -/
def Instr.wf (aluExt : Bool) (i : Instr) : Bool := aluExt || !i.needsAluExt

end Sys2Proof
end

