-- ==== Sys2Proof/Decode.lean ====
section
/-! DEFINITION. The decoder: opcode extractor, format classifier, field shifter, field range check, diagnostic,
dispatch (30_encoding.md R70 to R89), and after it the encoder of R77. -/

namespace Sys2Proof

/-- `w[hi:lo]` of 00_scope.md R8. -/
def bits (w : Word) (hi lo : Nat) : Nat := (w.toNat >>> lo) &&& (2 ^ (hi - lo + 1) - 1)

/-- The opcode extractor (R72). -/
def opcodeOf (w : Word) : Nat := bits w 31 26

/-- The format classifier (R73): a function of the opcode alone; none is UnsupportedOpcode. -/
def classify (opcode : Nat) : Option Format :=
  if opcode = 0x00 then some .r
  else if opcode = 0x02 then some .j
  else if opcode = 0x04 then some .i
  else if opcode = 0x23 then some .i
  else if opcode = 0x2B then some .i
  else none

/-- The field shifter (R74 to R76). -/
def extract (fmt : Format) (w : Word) : RawFields :=
  match fmt with
  | .r => .r (bits w 25 21) (bits w 20 16) (bits w 15 11) (bits w 10 6) (bits w 5 0)
  | .i => .i (bits w 25 21) (bits w 20 16) (bits w 15 0)
  | .j => .j (bits w 25 0)

/-- One register-index field re-validated to [0,31] (R78). -/
def checkReg (field : FieldName) (value : Nat) : Except Error Reg :=
  if h : value < 32 then .ok ⟨value, h⟩ else .error (.fieldRange field value)

/-- The field range check (R78), on the register fields of the format in the order rs, rt, rd. -/
def checkFields (raw : RawFields) : Except Error Fields :=
  match raw with
  | .r rs rt rd shamt funct =>
    match checkReg .rs rs, checkReg .rt rt, checkReg .rd rd with
    | .ok rs, .ok rt, .ok rd => .ok (.r rs rt rd (BitVec.ofNat 5 shamt) (BitVec.ofNat 6 funct))
    | .error e, _, _ => .error e
    | .ok _, .error e, _ => .error e
    | .ok _, .ok _, .error e => .error e
  | .i rs rt imm =>
    match checkReg .rs rs, checkReg .rt rt with
    | .ok rs, .ok rt => .ok (.i rs rt (BitVec.ofNat 16 imm))
    | .error e, _ => .error e
    | .ok _, .error e => .error e
  | .j addr26 => .ok (.j (BitVec.ofNat 26 addr26))

/-- What the decoder emits after extraction and before dispatch (R88). -/
def diagnostics (f : Fields) : List Event :=
  match f with
  | .r rs rt rd shamt funct => [.diag .r, .fields rs rt rd shamt funct]
  | .i _ _ _ => [.diag .i]
  | .j _ => [.diag .j]

/-- The outcome of a decode: an instruction, or the error that rejects the word by name. -/
inductive DecodeResult where
  | instr (i : Instr)
  | reject (e : Error)
deriving DecidableEq, Repr

/-- The R-format rows of the dispatch table (R80), by funct; none is UnsupportedFunct. -/
def dispatchR (aluExt : Bool) (rs rt rd : Reg) (shamt : Shamt) (funct : Nat) : Option Instr :=
  if funct = 0x20 then some (.add rd rs rt shamt)
  else if funct = 0x0C then some (.syscall rs rt rd shamt)
  else if !aluExt then none
  else if funct = 0x22 then some (.sub rd rs rt shamt)
  else if funct = 0x24 then some (.and rd rs rt shamt)
  else if funct = 0x25 then some (.or rd rs rt shamt)
  else if funct = 0x26 then some (.xor rd rs rt shamt)
  else if funct = 0x00 then some (.sll rd rt shamt rs)
  else if funct = 0x02 then some (.srl rd rt shamt rs)
  else none

/-- The I-format rows of the dispatch table (R80), by opcode. -/
def dispatchI (opcode : Nat) (rs rt : Reg) (imm : Imm) : Option Instr :=
  if opcode = 0x23 then some (.lw rt rs imm)
  else if opcode = 0x2B then some (.sw rt rs imm)
  else if opcode = 0x04 then some (.beq rs rt imm)
  else none

/-- The dispatch table (R80): format plus opcode or funct selects one handler, or the word is rejected. The
last-but-one case is never reached, since the classifier gives format I to the three opcodes of `dispatchI` only. -/
def dispatch (aluExt : Bool) (w : Word) (f : Fields) : DecodeResult :=
  match f with
  | .r rs rt rd shamt funct =>
    match dispatchR aluExt rs rt rd shamt funct.toNat with
    | some i => .instr i
    | none => .reject (.unsupportedFunct funct.toNat w)
  | .i rs rt imm =>
    match dispatchI (opcodeOf w) rs rt imm with
    | some i => .instr i
    | none => .reject (.unsupportedOpcode (opcodeOf w) w)
  | .j addr26 => .instr (.j addr26)

/-- A decoded word: the events the decoder emitted, and the handler or the error. -/
structure Decoded where
  events : List Event
  result : DecodeResult
deriving DecidableEq, Repr

/-- The decode pipeline (R70), total on words (R89) and a function of the word and ALU_EXT only. -/
def decode (aluExt : Bool) (w : Word) : Decoded :=
  match classify (opcodeOf w) with
  | none => ⟨[], .reject (.unsupportedOpcode (opcodeOf w) w)⟩
  | some fmt =>
    match checkFields (extract fmt w) with
    | .error e => ⟨[], .reject e⟩
    | .ok f => ⟨diagnostics f, dispatch aluExt w f⟩

/-- The decoder's instruction, if it gives one. -/
def DecodeResult.instr? : DecodeResult → Option Instr
  | .instr i => some i
  | .reject _ => none

/-- The instruction the decoder reads from a table row's word. Every instruction is one 32-bit word (R71, R85), so a
row's word is the value of one input line; bits above `nbits` are 0. ALU_EXT is true, its reference value (log 3). -/
def decodeTableWord (nbits w : Nat) : Option Instr :=
  (decode true (BitVec.ofNat 32 (w % 2 ^ nbits))).result.instr?

/-! The encoder: the field equations of R77 read right to left. -/

/-- R-format: `opcode<<26 | rs<<21 | rt<<16 | rd<<11 | shamt<<6 | funct`. -/
def packR (opcode : Nat) (rs rt rd : Reg) (shamt : Shamt) (funct : Nat) : Word :=
  BitVec.ofNat 32 (opcode <<< 26 ||| rs.val <<< 21 ||| rt.val <<< 16 ||| rd.val <<< 11 ||| shamt.toNat <<< 6 ||| funct)

/-- I-format: `opcode<<26 | rs<<21 | rt<<16 | imm`. -/
def packI (opcode : Nat) (rs rt : Reg) (imm : Imm) : Word :=
  BitVec.ofNat 32 (opcode <<< 26 ||| rs.val <<< 21 ||| rt.val <<< 16 ||| imm.toNat)

/-- J-format: `opcode<<26 | addr26`. -/
def packJ (opcode : Nat) (addr26 : Addr26) : Word :=
  BitVec.ofNat 32 (opcode <<< 26 ||| addr26.toNat)

/-- The word of an instruction, by the opcodes and functs of R80. -/
def encode : Instr → Word
  | .add rd rs rt shamt     => packR 0x00 rs rt rd shamt 0x20
  | .sub rd rs rt shamt     => packR 0x00 rs rt rd shamt 0x22
  | .and rd rs rt shamt     => packR 0x00 rs rt rd shamt 0x24
  | .or rd rs rt shamt      => packR 0x00 rs rt rd shamt 0x25
  | .xor rd rs rt shamt     => packR 0x00 rs rt rd shamt 0x26
  | .sll rd rt shamt rs     => packR 0x00 rs rt rd shamt 0x00
  | .srl rd rt shamt rs     => packR 0x00 rs rt rd shamt 0x02
  | .syscall rs rt rd shamt => packR 0x00 rs rt rd shamt 0x0C
  | .lw rt rs imm           => packI 0x23 rs rt imm
  | .sw rt rs imm           => packI 0x2B rs rt imm
  | .beq rs rt imm          => packI 0x04 rs rt imm
  | .j addr26               => packJ 0x02 addr26

/-! The assembler's notation (R86, R87) -/

/-- A number as a 16-bit immediate: two's complement, or unsigned for an offset under LS_OFFSET_EXT = Zero (R86). -/
def asmImm (ext : LsOffsetExt) (n : Int) : Option Imm :=
  match ext with
  | .sign => if -(2 ^ 15) ≤ n ∧ n < 2 ^ 15 then some (BitVec.ofInt 16 n) else none
  | .zero => if 0 ≤ n ∧ n < 2 ^ 16 then some (BitVec.ofInt 16 n) else none

/-- The fields an assembly form stands for, the ignored ones zero. A form whose operand does not fit its field, or whose
instruction the block does not have, assembles to nothing. -/
def assemble (cfg : Config) (a : Asm) : Option Instr :=
  let i : Option Instr :=
    match a with
    | .add rd rs rt    => some (.add rd rs rt 0)
    | .sub rd rs rt    => some (.sub rd rs rt 0)
    | .and rd rs rt    => some (.and rd rs rt 0)
    | .or rd rs rt     => some (.or rd rs rt 0)
    | .xor rd rs rt    => some (.xor rd rs rt 0)
    | .sll rd rt shamt => some (.sll rd rt shamt 0)
    | .srl rd rt shamt => some (.srl rd rt shamt 0)
    | .syscall         => some (.syscall 0 0 0 0)
    | .lw rt off rs    => (asmImm cfg.lsOffsetExt off).map (Instr.lw rt rs)
    | .sw rt off rs    => (asmImm cfg.lsOffsetExt off).map (Instr.sw rt rs)
    | .beq rs rt n     => (asmImm .sign n).map (Instr.beq rs rt)
    | .j target        =>
      if target % 4 = 0 ∧ target < 2 ^ 28 then some (.j (BitVec.ofNat 26 (target / 4))) else none
    | .nop             => some (.sll 0 0 0 0)
  i.filter (Instr.wf cfg.aluExt)

/-- `$0` to `$31` (R86). -/
def regNumbers : List String :=
  ["$0", "$1", "$2", "$3", "$4", "$5", "$6", "$7", "$8", "$9", "$10", "$11", "$12", "$13", "$14", "$15", "$16", "$17",
    "$18", "$19", "$20", "$21", "$22", "$23", "$24", "$25", "$26", "$27", "$28", "$29", "$30", "$31"]

/-- The conventional names of registers 0 to 31, accepted in assembly text only (10_state.md R33). -/
def regAliases : List String :=
  ["$zero", "$at", "$v0", "$v1", "$a0", "$a1", "$a2", "$a3", "$t0", "$t1", "$t2", "$t3", "$t4", "$t5", "$t6", "$t7",
    "$s0", "$s1", "$s2", "$s3", "$s4", "$s5", "$s6", "$s7", "$t8", "$t9", "$k0", "$k1", "$gp", "$sp", "$fp", "$ra"]

/-- The register a name stands for in assembly text (R33, R86). -/
def regByName (name : String) : Option Nat :=
  match regNumbers.findIdx? (· == name) with
  | some r => some r
  | none => regAliases.findIdx? (· == name)

end Sys2Proof
end

