-- ==== Sys2Proof/Machine/State.lean ====
section
/-! DEFINITION. The state of a session: MachineState (10_state.md R30), the block's parameters (00_scope.md R7), and
the host's input position, output stream and session end (R44, 00_scope.md R17, 60_exceptions.md R216). -/

namespace Sys2Proof.Machine

/-- The contents of the memory, as bytes at byte addresses: cell i is the four bytes at 4i to 4i+3, its least
significant byte first (log 7: no load, store or service can see which byte of a cell the list puts first). The
canonical form is `Memory.wf`. -/
abbrev Memory := List Host.Cell

/-- MachineState: exactly four elements (R30). Cell 0 of `regs` is not read (`State.reg`) and stays 0 (R31, R240). -/
structure MachineState where
  regs   : Vector Word 32
  mem    : Memory
  pc     : Word
  halted : Bool
deriving DecidableEq, Repr

/-- What follows the characters that are left: the end of the input (60_exceptions.md R226) or an unrecoverable
failure of the stream (R227). -/
inductive StreamTail where
  | endOfInput
  | failure
deriving DecidableEq, Repr

/-- The input stream from the host's position on (10_state.md R44). -/
structure Input where
  chars : List Char
  tail  : StreamTail
deriving DecidableEq, Repr

/-- How the input stream ended a session: 60_exceptions.md R216 (b) normally, (c) abnormally. The third way, R216 (a),
is the halted flag. -/
inductive SessionEnd where
  | endOfInput
  | failure
deriving DecidableEq, Repr

/-- A session: the block's parameters, MachineState, the input stream, the output stream (first event first) and the
session's end. -/
structure State where
  cfg     : Config
  machine : MachineState
  input   : Input
  out     : List Event
  ended   : Option SessionEnd
deriving DecidableEq, Repr

/-- Why the machine takes no step. No instruction answers with either. -/
inductive Fault where
  /-- Raised by `step` when the halted flag is set: "While halted is true the block takes no step" (10_state.md R40).
  Safe: the hardware does not go on either. -/
  | halted
  /-- Raised by `step` when the input stream has ended the session (60_exceptions.md R216). Safe: the hardware does not
  go on either. -/
  | sessionEnded
deriving DecidableEq, Repr

/-- Why an instruction has no meaning. -/
inductive Refusal where
  /-- Raised by an arm of `exec` whose instruction has no meaning yet. Safe. No arm of this model raises it. -/
  | notModelled (mnemonic : String)
deriving DecidableEq, Repr

/-- The outcome of an instruction or a step. -/
abbrev Result := Host.Outcome State Fault Refusal

/-- What reading one line of the input stream gives. -/
inductive LineRead where
  | line (text : List Char) (rest : Input)
  | endOfInput
  | failure
deriving DecidableEq, Repr

/-- The host's answer on `int_in` (00_scope.md R16), with the input that is left, or a failure of the stream
(60_exceptions.md R227). -/
inductive IntRead where
  | int (v : Int) (rest : Input)
  | malformed (text : List Char) (rest : Input)
  | endOfInput
  | failure
deriving DecidableEq, Repr

/-- What one turn of the read loop (60_exceptions.md R220) finds before the block runs. -/
inductive Fetched where
  | stopped (reason : Fault)
  | streamEnd (e : SessionEnd)
  | badLine (info : InputFormatInfo) (rest : Input)
  | word (w : Word) (rest : Input)
deriving DecidableEq, Repr

/-- MachineState after reset at the reference launch values: registers, memory and pc 0 (DESIGN CHOICE by the spec's
reference values, logs 4, 5, 6), Running (70_reset_and_hazards.md R240, R242). -/
def MachineState.reset : MachineState :=
  { regs := Vector.replicate 32 0, mem := [], pc := 0, halted := false }

/-- The session right after reset (R240): reference parameters (logs 2, 3), no output, no input placed (log 8). -/
def State.reset : State :=
  { cfg := Config.reference, machine := MachineState.reset, input := { chars := [], tail := .endOfInput }, out := [],
    ended := none }

end Sys2Proof.Machine
end

