-- ==== Sys2Proof/Machine/Ops.lean ====
section
/-! DEFINITION. The operations every meaning is written over: registers, the memory port, the pc, events, and the
reporting of an error, which is all that "taking an exception" is on this block (60_exceptions.md R200, R202). -/

namespace Sys2Proof.Machine

/-! Memory, byte by byte -/

/-- What a byte that the list does not name reads as: init_mem is 0 at the reference launch (log 5). -/
def unlistedByte : Byte := 0

/-- The canonical form: addresses strictly rising, and no entry that an unlisted address would read as. -/
abbrev Memory.wf (m : Memory) : Prop :=
  m.Pairwise (fun a b => a.1 < b.1) ∧ ∀ c ∈ m, c.2 ≠ unlistedByte

def Memory.readByte : Memory → Nat → Byte
  | [], _ => unlistedByte
  | (k, v) :: m, a => if k = a then v else Memory.readByte m a

/-- One byte in front of a memory, left out if it is what an unlisted address reads as. -/
def Memory.cons (a : Nat) (b : Byte) (m : Memory) : Memory := if b = unlistedByte then m else (a, b) :: m

/-- Writes one byte and keeps the canonical form. -/
def Memory.writeByte : Memory → Nat → Byte → Memory
  | [], a, b => Memory.cons a b []
  | (k, v) :: m, a, b =>
    if a < k then Memory.cons a b ((k, v) :: m)
    else if a = k then Memory.cons a b m
    else (k, v) :: Memory.writeByte m a b

/-! The memory port: whole cells (20_memory.md R52) -/

/-- `read(i)`: the word held in cell i. -/
def Memory.readCell (m : Memory) (i : Nat) : Word :=
  m.readByte (4 * i + 3) ++ m.readByte (4 * i + 2) ++ m.readByte (4 * i + 1) ++ m.readByte (4 * i)

/-- `write(i, v)`: cell i becomes v. -/
def Memory.writeCell (m : Memory) (i : Nat) (v : Word) : Memory :=
  (((m.writeByte (4 * i) (v.extractLsb' 0 8)).writeByte (4 * i + 1) (v.extractLsb' 8 8)).writeByte
    (4 * i + 2) (v.extractLsb' 16 8)).writeByte (4 * i + 3) (v.extractLsb' 24 8)

/-- Byte lane k of a word under STR_BYTE_ORDER (43_syscall.md R177): bits `[8k+7:8k]`, or `[31-8k:24-8k]`. -/
def byteLane (order : ByteOrder) (k : Nat) (w : Word) : Byte :=
  match order with
  | .little => w.extractLsb' (8 * k) 8
  | .big => w.extractLsb' (24 - 8 * k) 8

/-- `MemByte(a)` of 00_scope.md R11 and 43_syscall.md R177. -/
def Memory.memByte (order : ByteOrder) (m : Memory) (a : Nat) : Byte := byteLane order (a % 4) (m.readCell (a / 4))

/-! Registers (00_scope.md R10, 10_state.md R31) -/

/-- `x[r]`: register r, and 0 for register 0. -/
def State.reg (s : State) (r : Reg) : Word := if r = 0 then 0 else s.machine.regs[r]

/-- `x[r] <- v`: no effect when r is 0. -/
def State.writeReg (s : State) (r : Reg) (v : Word) : State :=
  if r = 0 then s else { s with machine := { s.machine with regs := s.machine.regs.set r v } }

/-! Memory and pc of a session -/

def State.readCell (s : State) (i : Nat) : Word := s.machine.mem.readCell i

def State.writeCell (s : State) (i : Nat) (v : Word) : State :=
  { s with machine := { s.machine with mem := s.machine.mem.writeCell i v } }

/-- The byte that service 4 sees at byte address a. -/
def State.memByte (s : State) (a : Nat) : Byte := s.machine.mem.memByte s.cfg.strByteOrder a

/-- `pc <- target`. -/
def State.setPc (s : State) (target : Word) : State := { s with machine := { s.machine with pc := target } }

/-- The sequential advance `pc <- pc +32 4` (42_control.md R150), modulo 2^32 (10_state.md R38). -/
def State.advancePc (s : State) : State := s.setPc (s.machine.pc + 4)

/-! Input, output, errors, the end of a session -/

def State.setInput (s : State) (inp : Input) : State := { s with input := inp }

/-- `emit(e)` for each event of the list, in order (00_scope.md R12). -/
def State.emit (s : State) (es : List Event) : State := { s with out := s.out ++ es }

/-- The input stream ends the session (60_exceptions.md R216); MachineState is left as it is (R226, R227). -/
def State.endSession (s : State) (e : SessionEnd) : State := { s with ended := some e }

/-- The numeric code of an error (60_exceptions.md R201, 92_eei_decisions.md D18): a label of the Err event, held in no
register. -/
def errorCode : Error → Nat
  | .inputFormat _         => 1
  | .unsupportedOpcode _ _ => 2
  | .unsupportedFunct _ _  => 3
  | .fieldRange _ _        => 4
  | .alignment _           => 5
  | .outOfBounds _         => 6
  | .unsupportedSyscall _  => 7

/-- `raise E(info)` (00_scope.md R12, 60_exceptions.md R202 to R204): one Err event, nothing else changes, and the
session goes on. There is no vector, no saved pc, no mode change and so no return (R200, R207, R208). -/
def raise (e : Error) (s : State) : Result := .next (s.emit [.err e])

end Sys2Proof.Machine
end

