-- ==== Sys2Proof/Machine/Operands.lean ====
section
/-! DEFINITION. Operand assembly (30_encoding.md R79), the effective address and checks of lw and sw (41_loadstore.md
R130, R131), and the targets of beq and j (42_control.md R152, R153). -/

namespace Sys2Proof.Machine

/-- `sext_16` (00_scope.md R9). -/
def sext16 (imm : Imm) : Word := imm.signExtend 32

/-- `zext_16` (R9). -/
def zext16 (imm : Imm) : Word := imm.zeroExtend 32

/-- `zext_26` (R9). -/
def zext26 (addr26 : Addr26) : Word := addr26.zeroExtend 32

/-- The offset of lw and sw, extended per LS_OFFSET_EXT (30_encoding.md R79). -/
def lsOffset (ext : LsOffsetExt) (imm : Imm) : Word :=
  match ext with
  | .sign => sext16 imm
  | .zero => zext16 imm

/-- The effective address, the exact integer sum of base and offset (R130). -/
def effectiveAddress (rs : Reg) (imm : Imm) (s : State) : Int :=
  s32 (s.reg rs) + s32 (lsOffset s.cfg.lsOffsetExt imm)

/-- The checks of lw and sw in their order (R131, 92_eei_decisions.md D5, D6, D31), and the word index `EA / 4`. -/
def checkLs (rs : Reg) (imm : Imm) (s : State) : Except Error Nat :=
  let ea := effectiveAddress rs imm s
  if imm.toNat % 4 ≠ 0 then .error (.alignment (.imm imm))
  else if ea % 4 ≠ 0 then .error (.alignment (.ea ea))
  else if ea / 4 < 0 ∨ ea / 4 ≥ (s.cfg.memWords : Int) then .error (.outOfBounds ea)
  else .ok (ea / 4).toNat

/-- The branch offset of beq: the signed immediate times 4 (30_encoding.md R79). -/
def branchOffset (imm : Imm) : Word := sext16 imm <<< 2

/-- The taken target of beq (R152). -/
def branchTarget (pc : Word) (imm : Imm) : Word := pc + 4 + branchOffset imm

/-- The target of j (R153); in Full mode the upper four bits are the current pc's. -/
def jumpTarget (mode : JumpMode) (pc : Word) (addr26 : Addr26) : Word :=
  match mode with
  | .full => (pc &&& 0xF0000000#32) ||| (zext26 addr26 <<< 2)
  | .simplified => zext26 addr26 <<< 2

end Sys2Proof.Machine
end

