-- ==== Sys2Proof/Machine/Alu.lean ====
section
/-! DEFINITION. The ALU and its seven instructions (40_alu.md). -/

namespace Sys2Proof.Machine

/-- The operations of the ALU (40_alu.md R110). -/
inductive AluOp where
  | add
  | sub
  | and
  | or
  | xor
  | sll
  | srl
deriving DecidableEq, Repr

/-- `alu(op, a, b, sa)` (R110). Sum and difference wrap modulo 2^32 (92_eei_decisions.md D1, D14); both shifts fill
with zeros (D15). -/
def alu (op : AluOp) (a b : Word) (sa : Shamt) : Word :=
  match op with
  | .add => a + b
  | .sub => a - b
  | .and => a &&& b
  | .or  => a ||| b
  | .xor => a ^^^ b
  | .sll => b <<< sa.toNat
  | .srl => b >>> sa.toNat

/-- Common to every ALU instruction (R111): the operands are already read; write `x[rd]`, then advance the pc. -/
def aluWrite (op : AluOp) (rd : Reg) (a b : Word) (sa : Shamt) (s : State) : Result :=
  .next (s.writeReg rd (alu op a b sa)).advancePc

/-- add (R100). -/
def execAdd (rd rs rt : Reg) (s : State) : Result := aluWrite .add rd (s.reg rs) (s.reg rt) 0 s

/-- sub (R101). -/
def execSub (rd rs rt : Reg) (s : State) : Result := aluWrite .sub rd (s.reg rs) (s.reg rt) 0 s

/-- and (R102). -/
def execAnd (rd rs rt : Reg) (s : State) : Result := aluWrite .and rd (s.reg rs) (s.reg rt) 0 s

/-- or (R103). -/
def execOr (rd rs rt : Reg) (s : State) : Result := aluWrite .or rd (s.reg rs) (s.reg rt) 0 s

/-- xor (R104). -/
def execXor (rd rs rt : Reg) (s : State) : Result := aluWrite .xor rd (s.reg rs) (s.reg rt) 0 s

/-- sll (R105): shifts `x[rt]` by shamt. -/
def execSll (rd rt : Reg) (shamt : Shamt) (s : State) : Result := aluWrite .sll rd 0 (s.reg rt) shamt s

/-- srl (R106): shifts `x[rt]` by shamt. -/
def execSrl (rd rt : Reg) (shamt : Shamt) (s : State) : Result := aluWrite .srl rd 0 (s.reg rt) shamt s

end Sys2Proof.Machine
end

