-- ==== Sys2Proof/Machine/Control.lean ====
section
/-! DEFINITION. beq and j (42_control.md). Neither selects the next instruction (20_memory.md R58) and there is no
delay slot (R154). -/

namespace Sys2Proof.Machine

/-- beq (R152): equality of the 32-bit patterns. -/
def execBeq (rs rt : Reg) (imm : Imm) (s : State) : Result :=
  if s.reg rs = s.reg rt then .next (s.setPc (branchTarget s.machine.pc imm)) else .next s.advancePc

/-- j (R153). -/
def execJ (addr26 : Addr26) (s : State) : Result :=
  .next (s.setPc (jumpTarget s.cfg.jumpMode s.machine.pc addr26))

end Sys2Proof.Machine
end

