-- ==== Sys2Proof/Machine/LoadStore.lean ====
section
/-! DEFINITION. lw and sw (41_loadstore.md). -/

namespace Sys2Proof.Machine

/-- lw (R135): memory to register. The address comes from the old base even when rt = rs. -/
def execLw (rt rs : Reg) (imm : Imm) (s : State) : Result :=
  match checkLs rs imm s with
  | .error e => raise e s
  | .ok idx => .next (s.writeReg rt (s.readCell idx)).advancePc

/-- sw (R136): register to memory. -/
def execSw (rt rs : Reg) (imm : Imm) (s : State) : Result :=
  match checkLs rs imm s with
  | .error e => raise e s
  | .ok idx => .next (s.writeCell idx (s.reg rt)).advancePc

end Sys2Proof.Machine
end

