-- ==== Sys2Proof/Machine/Flags.lean ====
section
/-! DEFINITION. Flags. The block has no condition codes: the halted flag is the only one (10_state.md R40, R41). -/

namespace Sys2Proof.Machine

/-- `halted <- true`; nothing clears the flag (R40). -/
def State.setHalted (s : State) : State := { s with machine := { s.machine with halted := true } }

/-- Why the block takes no step, if it takes none: it is halted (R40), or its session is over (60_exceptions.md R216). -/
def State.stopReason (s : State) : Option Fault :=
  if s.machine.halted then some .halted
  else if s.ended.isSome then some .sessionEnded
  else none

end Sys2Proof.Machine
end

