-- ==== Sys2Proof/Machine/HostPort.lean ====
section
/-! DEFINITION. The host side of the block's ports (60_exceptions.md R220 to R228): reading a line, the hex parser, the
integer parser of service 5, and the text of the output. -/

namespace Sys2Proof.Machine

/-! Lines (R224) -/

/-- The characters before the first line feed, and those after it if there is one. -/
def splitLine : List Char → List Char × Option (List Char)
  | [] => ([], none)
  | c :: cs =>
    if c = '\n' then ([], some cs)
    else ((c :: (splitLine cs).1), (splitLine cs).2)

/-- One carriage return immediately before the line feed belongs to the terminator. -/
def stripCr : List Char → List Char
  | [] => []
  | [c] => if c = '\r' then [] else [c]
  | c :: d :: cs => c :: stripCr (d :: cs)

/-- Reads one line and strips its terminator. A last line without a terminator is a line (R224), but one that a stream
failure cuts off is not (R227; log 11). -/
def readLine (inp : Input) : LineRead :=
  match splitLine inp.chars, inp.tail with
  | (text, some rest), tail => .line (stripCr text) ⟨rest, tail⟩
  | (_, none), .failure => .failure
  | ([], none), .endOfInput => .endOfInput
  | (c :: cs, none), .endOfInput => .line (c :: cs) ⟨[], .endOfInput⟩

/-! The hex parser (R221, R222) -/

/-- `digit(c)` of R221; none for a character outside `[0-9A-Fa-f]`. -/
def hexDigit? (c : Char) : Option Nat :=
  if 0x30 ≤ c.toNat ∧ c.toNat ≤ 0x39 then some (c.toNat - 0x30)
  else if 0x61 ≤ c.toNat ∧ c.toNat ≤ 0x66 then some (c.toNat - 0x61 + 10)
  else if 0x41 ≤ c.toNat ∧ c.toNat ≤ 0x46 then some (c.toNat - 0x41 + 10)
  else none

/-- The first character that is no hex digit, with its position. -/
def firstBad (position : Nat) : List Char → Option (Char × Nat)
  | [] => none
  | c :: cs => if (hexDigit? c).isNone then some (c, position) else firstBad (position + 1) cs

/-- The base-16 positional value, most significant digit first (R221). -/
def hexValue : List Char → Nat
  | [] => 0
  | c :: cs => (hexDigit? c).getD 0 * 16 ^ cs.length + hexValue cs

/-- The hex parser: exactly 8 characters, each a hex digit (R221), else what is wrong with the line (R222). -/
def parseHex (line : List Char) : Except InputFormatInfo Word :=
  if line.length ≠ 8 then .error (.wrongLength line line.length)
  else
    match firstBad 0 line with
    | some (c, position) => .error (.badCharacter line c position)
    | none => .ok (BitVec.ofNat 32 (hexValue line))

/-- The lower-case hex digit of a value below 16. -/
def hexChar (d : Nat) : Char := Char.ofNat (if d < 10 then 0x30 + d else 0x61 + (d - 10))

/-- A word as zero-padded 8-digit hex (R223; the formatter's case is lower). -/
def formatHex (w : Word) : List Char :=
  [7, 6, 5, 4, 3, 2, 1, 0].map (fun i => hexChar (w.toNat / 16 ^ i % 16))

/-! The integer line of service 5 (R225) -/

/-- An ASCII space or tab. -/
def isBlank (c : Char) : Bool := c == ' ' || c == '\t'

/-- Spaces and tabs stripped at both ends. -/
def stripBlanks (cs : List Char) : List Char := ((cs.dropWhile isBlank).reverse.dropWhile isBlank).reverse

/-- The value of a decimal digit. -/
def decDigit? (c : Char) : Option Nat :=
  if 0x30 ≤ c.toNat ∧ c.toNat ≤ 0x39 then some (c.toNat - 0x30) else none

/-- The decimal value of a list of digits that follow `acc`; none if one is no digit. -/
def decValue? (acc : Nat) : List Char → Option Nat
  | [] => some acc
  | c :: cs =>
    match decDigit? c with
    | some d => decValue? (10 * acc + d) cs
    | none => none

/-- One or more decimal digits. -/
def parseDigits (cs : List Char) : Option Nat := if cs = [] then none else decValue? 0 cs

/-- An optional sign, then one or more decimal digits. -/
def parseSigned : List Char → Option Int
  | '+' :: cs => (parseDigits cs).map (fun n => (n : Int))
  | '-' :: cs => (parseDigits cs).map (fun n => -(n : Int))
  | cs => (parseDigits cs).map (fun n => (n : Int))

/-- The integer of a service-5 line, if its value is a signed 32-bit one. -/
def parseInt (text : List Char) : Option Int :=
  match parseSigned (stripBlanks text) with
  | some v => if -(2 ^ 31) ≤ v ∧ v < 2 ^ 31 then some v else none
  | none => none

/-- The host's answer on `int_in`: the next line of the same stream (00_scope.md R16, 43_syscall.md R179). The text of
a malformed answer is the line without its terminator (log 14). -/
def requestInt (inp : Input) : IntRead :=
  match readLine inp with
  | .endOfInput => .endOfInput
  | .failure => .failure
  | .line text rest =>
    match parseInt text with
    | some v => .int v rest
    | none => .malformed text rest

/-! The text of the output (R228) -/

/-- The decimal digits of n after `fuel` more divisions at most; `n + 1` is enough. -/
def decimalDigits : Nat → Nat → List Char
  | 0, _ => []
  | fuel + 1, n => if n < 10 then [Char.ofNat (0x30 + n)] else decimalDigits fuel (n / 10) ++ [Char.ofNat (0x30 + n % 10)]

/-- The decimal form of an integer: `-` before a negative one, no leading zeros (43_syscall.md R172). -/
def renderInt (v : Int) : List Char :=
  if v < 0 then '-' :: decimalDigits (v.natAbs + 1) v.natAbs else decimalDigits (v.natAbs + 1) v.natAbs

/-- The bytes the host writes for an event: the spec fixes those of OutInt (R172) and OutStr (R178) only. -/
def renderEvent : Event → List Byte
  | .diag fmt => Config.diagText fmt
  | .fields rs rt rd shamt funct => Config.fieldsText rs rt rd shamt funct
  | .outInt v => (renderInt v).map (fun c => BitVec.ofNat 8 c.toNat)
  | .outStr bytes => bytes
  | .err e => Config.errText e

/-- All the host has written: the startup banner, emitted before the first step (70_reset_and_hazards.md R243), then
the events in order. -/
def State.transcript (s : State) : List Byte := Config.bannerText ++ s.out.flatMap renderEvent

end Sys2Proof.Machine
end

