-- ==== Sys2Proof/Machine/Syscall.lean ====
section
/-! DEFINITION. The syscall dispatcher and its services (43_syscall.md). -/

namespace Sys2Proof.Machine

/-- Service 1, print integer (R172). -/
def servicePrintInt (a0 : Word) (s : State) : Result := .next (s.emit [.outInt (s32 a0)]).advancePc

/-- The bytes from byte address a up to the first zero byte, if one comes within the next `room` bytes (R176). -/
def scanString (s : State) : (room a : Nat) → Option (List Byte)
  | 0, _ => none
  | room + 1, a => if s.memByte a = 0 then some [] else (scanString s room (a + 1)).map (s.memByte a :: ·)

/-- The string at a signed byte address (R176): none if the address is negative or the scan leaves the memory. -/
def stringAt (s : State) (a : Int) : Option (List Byte) :=
  if a < 0 then none else scanString s (4 * s.cfg.memWords - a.toNat) a.toNat

/-- Service 4, print string (R176): the whole string is scanned before anything is emitted. -/
def servicePrintString (a0 : Word) (s : State) : Result :=
  match stringAt s (s32 a0) with
  | none => raise (.outOfBounds (s32 a0)) s
  | some bytes => .next (s.emit [.outStr bytes]).advancePc

/-- Service 5, read integer (R179; end of input 60_exceptions.md R226, stream failure R227). A malformed line is
consumed. -/
def serviceReadInt (s : State) : Result :=
  match requestInt s.input with
  | .int v rest => .next ((s.setInput rest).writeReg 2 (wrap32 v)).advancePc
  | .malformed text rest => raise (.inputFormat (.notInteger text)) (s.setInput rest)
  | .endOfInput => .next (s.endSession .endOfInput)
  | .failure => .next (s.endSession .failure)

/-- Service 10, exit (R180). -/
def serviceExit (s : State) : Result := .next s.setHalted.advancePc

/-- syscall (R170, R171): `x[2]` selects the service, `x[4]` is the argument; every other code is
UnsupportedSyscall (R181). -/
def execSyscall (s : State) : Result :=
  let code := s32 (s.reg 2)
  let a0 := s.reg 4
  if code = 1 then servicePrintInt a0 s
  else if code = 4 then servicePrintString a0 s
  else if code = 5 then serviceReadInt s
  else if code = 10 then serviceExit s
  else raise (.unsupportedSyscall code) s

end Sys2Proof.Machine
end

