-- ==== Sys2Proof/Machine/Dispatch.lean ====
section
/-! DEFINITION. The handler of each instruction of the dispatch table (30_encoding.md R80). The ignored fields of R81
reach no handler. -/

namespace Sys2Proof.Machine

def exec (i : Instr) (s : State) : Host.Outcome State Fault Refusal :=
  match i with
  | .add rd rs rt _ => Sys2Proof.Machine.execAdd rd rs rt s
  | .sub rd rs rt _ => Sys2Proof.Machine.execSub rd rs rt s
  | .and rd rs rt _ => Sys2Proof.Machine.execAnd rd rs rt s
  | .or rd rs rt _ => Sys2Proof.Machine.execOr rd rs rt s
  | .xor rd rs rt _ => Sys2Proof.Machine.execXor rd rs rt s
  | .sll rd rt shamt _ => Sys2Proof.Machine.execSll rd rt shamt s
  | .srl rd rt shamt _ => Sys2Proof.Machine.execSrl rd rt shamt s
  | .syscall _ _ _ _ => Sys2Proof.Machine.execSyscall s
  | .lw rt rs imm => Sys2Proof.Machine.execLw rt rs imm s
  | .sw rt rs imm => Sys2Proof.Machine.execSw rt rs imm s
  | .beq rs rt imm => Sys2Proof.Machine.execBeq rs rt imm s
  | .j addr26 => Sys2Proof.Machine.execJ addr26 s

end Sys2Proof.Machine
end

