-- ==== Sys2Proof/Machine/Fetch.lean ====
section
/-! DEFINITION. One turn of the host's read loop up to the block (60_exceptions.md R220), what the block does with the
word it is given (00_scope.md R19), and the launch of a session (70_reset_and_hazards.md R240). -/

namespace Sys2Proof.Machine

/-- Reads one line and parses it, unless the block is halted or the session over (R216, R220). -/
def fetch (s : State) : Fetched :=
  match s.stopReason with
  | some reason => .stopped reason
  | none =>
    match readLine s.input with
    | .endOfInput => .streamEnd .endOfInput
    | .failure => .streamEnd .failure
    | .line text rest =>
      match parseHex text with
      | .error info => .badLine info rest
      | .ok w => .word w rest

/-- The block's step on one word of `instr_in` (R19): decode, with the diagnostics before dispatch (30_encoding.md R88),
then the handler, or the decode error (60_exceptions.md R204). -/
def issue (w : Word) (s : State) : Result :=
  match (decode s.cfg.aluExt w).result with
  | .reject e => raise e (s.emit (decode s.cfg.aluExt w).events)
  | .instr i => exec i (s.emit (decode s.cfg.aluExt w).events)

/-- The input with one line in front that the hex parser reads as the word. -/
def Input.placeWord (inp : Input) (w : Word) : Input := ⟨formatHex w ++ '\n' :: inp.chars, inp.tail⟩

/-- Cells i, i+1, … set to the words of the list. -/
def Memory.placeWords : Nat → List Word → Memory → Memory
  | _, [], m => m
  | i, w :: ws, m => Memory.placeWords (i + 1) ws (m.writeCell i w)

/-- The state of a session at its start (R240, R241), for any parameters, launch and input. -/
def State.launch (cfg : Config) (l : Launch) (inp : Input) : State :=
  { cfg := cfg
    machine := { regs := l.initRegs.set 0 0, mem := Memory.placeWords 0 l.initMem [], pc := l.initPc, halted := false }
    input := inp
    out := []
    ended := none }

end Sys2Proof.Machine
end

