-- ==== Sys2Proof/Machine/Step.lean ====
section
/-! DEFINITION. One step of a session: one turn of the read loop (60_exceptions.md R220). -/

namespace Sys2Proof.Machine

/-- Reads one line; hands its word to the block, or reports the line (R222), or ends the session (R226, R227). A halted
block and an ended session take no step (10_state.md R40, 60_exceptions.md R216). -/
def step (s : State) : Host.Outcome State Fault Refusal :=
  match fetch s with
  | .stopped reason => .fault reason
  | .streamEnd e => .next (s.endSession e)
  | .badLine info rest => raise (.inputFormat info) (s.setInput rest)
  | .word w rest => issue w (s.setInput rest)

/-- The state with one more input line in front, the line that holds the word (log 9). A word's bits above `nbits` are
0, and the block's longest instruction is one word of 32 bits (30_encoding.md R71). -/
def State.withFetchWord (s : State) (nbits w : Nat) : State :=
  s.setInput (s.input.placeWord (BitVec.ofNat 32 (w % 2 ^ nbits)))

end Sys2Proof.Machine
end

