-- ==== Sys2Proof/Safety.lean ====
section
/-! DEFINITION. The terms the claims are stated in: the invariant of a session, and what an instruction leaves
unchanged. -/

namespace Sys2Proof

/-- An event that reports an error. -/
def Event.isErr : Event → Bool
  | .err _ => true
  | _ => false

end Sys2Proof

namespace Sys2Proof.Machine

/-- The invariant of a session: MEM_WORDS in its bound (00_scope.md R7), register 0's cell 0 (70_reset_and_hazards.md
R240), the memory canonical and inside `[0, 4 * MEM_WORDS)` (20_memory.md R50), the pc word-aligned (10_state.md R37). -/
structure State.Inv (s : State) : Prop where
  cfg      : s.cfg.wf
  zeroCell : s.machine.regs[0] = 0
  memory   : s.machine.mem.wf
  extent   : ∀ c ∈ s.machine.mem, c.1 < 4 * s.cfg.memWords
  aligned  : s.machine.pc.toNat % 4 = 0

/-- Every register but `d` reads as before. -/
def SameRegsBut (d : Reg) (s t : State) : Prop := ∀ r, r ≠ d → t.reg r = s.reg r

/-- Every register reads as before. -/
def SameRegs (s t : State) : Prop := ∀ r, t.reg r = s.reg r

/-- Every byte of memory reads as before. -/
def SameMemory (s t : State) : Prop := ∀ a, t.memByte a = s.memByte a

/-- The parameters, the input position, the session's end and the halted flag are as before. -/
def SameSession (s t : State) : Prop :=
  t.cfg = s.cfg ∧ t.input = s.input ∧ t.ended = s.ended ∧ t.machine.halted = s.machine.halted

/-- `t` is `s` after an instruction whose whole effect is `x[rd] <- v` and the sequential advance of the pc; register 0
stays 0. -/
structure WritesRegister (s t : State) (rd : Reg) (v : Word) : Prop where
  dest    : t.reg rd = if rd = 0 then 0 else v
  others  : SameRegsBut rd s t
  memory  : SameMemory s t
  pc      : t.machine.pc = s.machine.pc + 4
  out     : t.out = s.out
  session : SameSession s t

/-- `t` is `s` after an instruction whose whole effect is `pc <- target`. -/
structure SetsPcOnly (s t : State) (target : Word) : Prop where
  pc      : t.machine.pc = target
  regs    : SameRegs s t
  memory  : SameMemory s t
  out     : t.out = s.out
  session : SameSession s t

/-- `t` is `s` after an instruction whose whole effect is one output event and the sequential advance of the pc. -/
structure EmitsOnly (s t : State) (e : Event) : Prop where
  out     : t.out = s.out ++ [e]
  pc      : t.machine.pc = s.machine.pc + 4
  regs    : SameRegs s t
  memory  : SameMemory s t
  session : SameSession s t

/-- `t` is `s` after an error was reported: one Err event more, and nothing else changed. -/
def Reports (s t : State) (e : Error) : Prop := t = { s with out := s.out ++ [.err e] }

/-- No register and no cell holds anything but 0, and the block is Running (70_reset_and_hazards.md R244). -/
def AllZero (s : State) : Prop := (∀ r, s.reg r = 0) ∧ (∀ i, s.readCell i = 0) ∧ s.machine.halted = false

/-- The instruction's handler did not complete: it reported an error, or the input stream ended the session. -/
def Failed (s t : State) : Prop := (∃ e, t.out = s.out ++ [.err e]) ∨ t.ended ≠ s.ended

/-- The next-pc mux for an instruction that completes: its selections JUMP, BRANCH and SEQ (42_control.md R151). -/
def nextPc (i : Instr) (s : State) : Word :=
  match i with
  | .j addr26 => jumpTarget s.cfg.jumpMode s.machine.pc addr26
  | .beq rs rt imm => if s.reg rs = s.reg rt then branchTarget s.machine.pc imm else s.machine.pc + 4
  | _ => s.machine.pc + 4

/-- The registers an instruction may write (10_state.md R32). -/
def writesReg (i : Instr) (s : State) (r : Reg) : Prop :=
  match i with
  | .add rd _ _ _ | .sub rd _ _ _ | .and rd _ _ _ | .or rd _ _ _ | .xor rd _ _ _ => r = rd
  | .sll rd _ _ _ | .srl rd _ _ _ => r = rd
  | .lw rt _ _ => r = rt
  | .syscall _ _ _ _ => r = 2 ∧ s32 (s.reg 2) = 5
  | .sw _ _ _ | .beq _ _ _ | .j _ => False

end Sys2Proof.Machine
end

