-- ==== Sys2Proof/Certificates/Slice0/Obligations.lean ====
section
/-! DEFINITION. The statements for the provers. "D<n>" is a decision of spec/92_eei_decisions.md, which the spec marks
as its own; "log <n>" is a row of notes/assumptions. -/

open Sys2Proof Sys2Proof.Machine

/-! ## Registers and the ALU -/

/-- 10_state.md R31: register 0 reads 0 and discards writes; every other register holds the last value written, and no
write reaches another register, the memory or the pc. -/
def Obligations.RegisterZeroIsHardWired : Prop :=
  ∀ (s : State) (r : Reg) (v : Word),
    s.reg 0 = 0 ∧ s.writeReg 0 v = s ∧ (s.writeReg r v).reg r = (if r = 0 then 0 else v) ∧
      SameRegsBut r s (s.writeReg r v) ∧ SameMemory s (s.writeReg r v) ∧
      (s.writeReg r v).machine.pc = s.machine.pc ∧ SameSession s (s.writeReg r v)

/-- 40_alu.md (add): the sum of the signed values wraps modulo 2^32 (D1) and the pc advances by 4 (D2, D3); a
destination 0 gets nothing; all else is unchanged. -/
def Obligations.AddCompletes : Prop :=
  ∀ (s : State) (rd rs rt : Reg) (shamt : Shamt), ∃ t, exec (.add rd rs rt shamt) s = .next t ∧
    WritesRegister s t rd (wrap32 (s32 (s.reg rs) + s32 (s.reg rt)))

/-- 40_alu.md (sub): the difference wraps without an error (D14). -/
def Obligations.SubCompletes : Prop :=
  ∀ (s : State) (rd rs rt : Reg) (shamt : Shamt), ∃ t, exec (.sub rd rs rt shamt) s = .next t ∧
    WritesRegister s t rd (wrap32 (s32 (s.reg rs) - s32 (s.reg rt)))

/-- 40_alu.md (and, or, xor): bitwise on the 32-bit patterns (D13). -/
def Obligations.BitwiseInstructionsComplete : Prop :=
  ∀ (s : State) (rd rs rt : Reg) (shamt : Shamt),
    (∃ t, exec (.and rd rs rt shamt) s = .next t ∧ WritesRegister s t rd (s.reg rs &&& s.reg rt)) ∧
    (∃ t, exec (.or rd rs rt shamt) s = .next t ∧ WritesRegister s t rd (s.reg rs ||| s.reg rt)) ∧
    (∃ t, exec (.xor rd rs rt shamt) s = .next t ∧ WritesRegister s t rd (s.reg rs ^^^ s.reg rt))

/-- 40_alu.md (sll, srl): sll multiplies the unsigned value by 2^shamt and drops what passes bit 31; srl divides it by
2^shamt, so zeros come in from bit 31 (D15). -/
def Obligations.ShiftsComplete : Prop :=
  ∀ (s : State) (rd rt rs : Reg) (shamt : Shamt),
    (∃ t, exec (.sll rd rt shamt rs) s = .next t ∧
      WritesRegister s t rd (BitVec.ofNat 32 (u32 (s.reg rt) * 2 ^ shamt.toNat))) ∧
    (∃ t, exec (.srl rd rt shamt rs) s = .next t ∧
      WritesRegister s t rd (BitVec.ofNat 32 (u32 (s.reg rt) / 2 ^ shamt.toNat)))

/-! ## Operands, load and store -/

/-- 30_encoding.md section 4 (operand assembly): the branch offset is four times the signed immediate, from -131072 to
131068; the two extensions of the lw and sw offset (D4) are the signed and the unsigned immediate and agree up to
0x7FFF; the shifted jump address is four times addr26. -/
def Obligations.OperandAssembly : Prop :=
  ∀ (imm : Imm) (addr26 : Addr26),
    s32 (branchOffset imm) = 4 * imm.toInt ∧ -131072 ≤ s32 (branchOffset imm) ∧ s32 (branchOffset imm) ≤ 131068 ∧
      s32 (lsOffset .sign imm) = imm.toInt ∧ s32 (lsOffset .zero imm) = imm.toNat ∧
      (imm.toNat ≤ 0x7FFF → lsOffset .sign imm = lsOffset .zero imm) ∧ u32 (zext26 addr26 <<< 2) = 4 * addr26.toNat

/-- 41_loadstore.md section 1: the effective address is the exact integer sum of base and offset (D6), the offset
extended per LS_OFFSET_EXT (D4). -/
def Obligations.EffectiveAddressIsTheExactSum : Prop :=
  ∀ (s : State) (rs : Reg) (imm : Imm),
    effectiveAddress rs imm s =
      s32 (s.reg rs) + (match s.cfg.lsOffsetExt with | .sign => imm.toInt | .zero => (imm.toNat : Int))

/-- 41_loadstore.md section 1, derived there from MEM_WORDS being at most 2^28: the sum modulo 2^32, read signed or
unsigned, gives the same outcome as the exact sum. -/
def Obligations.WrappedAddressGivesTheSameOutcome : Prop :=
  ∀ (s : State) (rs : Reg) (imm : Imm) (w : Int), s.cfg.wf →
    (w = s32 (s.reg rs + lsOffset s.cfg.lsOffsetExt imm) ∨ w = u32 (s.reg rs + lsOffset s.cfg.lsOffsetExt imm)) →
    (effectiveAddress rs imm s % 4 = 0 ↔ w % 4 = 0) ∧
      ((0 ≤ effectiveAddress rs imm s ∧ effectiveAddress rs imm s < 4 * s.cfg.memWords) ↔
        (0 ≤ w ∧ w < 4 * s.cfg.memWords)) ∧
      (0 ≤ w ∧ w < 4 * s.cfg.memWords → effectiveAddress rs imm s = w)

/-- 41_loadstore.md (lw): when the immediate is a multiple of 4 and the effective address is that of a cell, the cell's
word is loaded (D2 for the pc, D5, D6 for the conditions). -/
def Obligations.LoadCompletes : Prop :=
  ∀ (s : State) (rt rs : Reg) (imm : Imm) (idx : Nat),
    imm.toNat % 4 = 0 → effectiveAddress rs imm s = 4 * idx → idx < s.cfg.memWords →
    ∃ t, exec (.lw rt rs imm) s = .next t ∧ WritesRegister s t rt (s.readCell idx)

/-- 41_loadstore.md (sw): under the conditions of lw, in a canonical memory, the cell becomes the register's word, and
every byte outside the four stored to is as before. -/
def Obligations.StoreCompletes : Prop :=
  ∀ (s : State) (rt rs : Reg) (imm : Imm) (idx : Nat), s.machine.mem.wf →
    imm.toNat % 4 = 0 → effectiveAddress rs imm s = 4 * idx → idx < s.cfg.memWords →
    ∃ t, exec (.sw rt rs imm) s = .next t ∧ t.readCell idx = s.reg rt ∧
      (∀ a : Nat, ((a : Int) < effectiveAddress rs imm s ∨ effectiveAddress rs imm s + 4 ≤ a) →
        t.memByte a = s.memByte a) ∧
      SameRegs s t ∧ t.machine.pc = s.machine.pc + 4 ∧ t.out = s.out ∧ SameSession s t

/-- 41_loadstore.md section 1, the checks in their order (D5, D6, D31): what lw and sw report, changing nothing. -/
def Obligations.LoadAndStoreErrors : Prop :=
  ∀ (s : State) (rt rs : Reg) (imm : Imm) (i : Instr), i = .lw rt rs imm ∨ i = .sw rt rs imm →
    (imm.toNat % 4 ≠ 0 → ∃ t, exec i s = .next t ∧ Reports s t (.alignment (.imm imm))) ∧
    (imm.toNat % 4 = 0 → effectiveAddress rs imm s % 4 ≠ 0 →
      ∃ t, exec i s = .next t ∧ Reports s t (.alignment (.ea (effectiveAddress rs imm s)))) ∧
    (imm.toNat % 4 = 0 → effectiveAddress rs imm s % 4 = 0 →
      (effectiveAddress rs imm s < 0 ∨ 4 * (s.cfg.memWords : Int) ≤ effectiveAddress rs imm s) →
      ∃ t, exec i s = .next t ∧ Reports s t (.outOfBounds (effectiveAddress rs imm s)))

/-- 20_memory.md section 6, derived there: a load from the address just stored to, through any base and offset, gives
the word stored. -/
def Obligations.StoreThenLoadGivesTheWordBack : Prop :=
  ∀ (s t : State) (rt rs rd rs' : Reg) (imm imm' : Imm), s.machine.mem.wf →
    exec (.sw rt rs imm) s = .next t → t.out = s.out → imm'.toNat % 4 = 0 →
    effectiveAddress rs' imm' t = effectiveAddress rs imm s →
    ∃ u, exec (.lw rd rs' imm') t = .next u ∧ u.reg rd = (if rd = 0 then 0 else s.reg rt) ∧ u.out = s.out

/-- 20_memory.md section 2 (D21): no instruction but syscall sees the byte order. -/
def Obligations.OnlySyscallSeesTheByteOrder : Prop :=
  ∀ (i : Instr) (s t : State) (order : ByteOrder),
    (∀ rs rt rd shamt, i ≠ .syscall rs rt rd shamt) → exec i s = .next t →
    exec i { s with cfg := { s.cfg with strByteOrder := order } } =
      .next { t with cfg := { t.cfg with strByteOrder := order } }

/-! ## Control -/

/-- 42_control.md (beq): taken when the patterns are equal, to pc + 4 + 4 * imm, else to pc + 4, modulo 2^32 (D3). -/
def Obligations.BranchCompletes : Prop :=
  ∀ (s : State) (rs rt : Reg) (imm : Imm), ∃ t, exec (.beq rs rt imm) s = .next t ∧
    SetsPcOnly s t (if s.reg rs = s.reg rt then wrap32 (u32 s.machine.pc + 4 + 4 * imm.toInt)
      else wrap32 (u32 s.machine.pc + 4))

/-- 42_control.md (j), in both forms of JUMP_MODE (D8): Full keeps the current pc's bits 31 to 28. -/
def Obligations.JumpCompletes : Prop :=
  ∀ (s : State) (addr26 : Addr26), ∃ t, exec (.j addr26) s = .next t ∧
    SetsPcOnly s t (match s.cfg.jumpMode with
      | .full => BitVec.ofNat 32 (u32 s.machine.pc / 2 ^ 28 * 2 ^ 28 + 4 * addr26.toNat)
      | .simplified => BitVec.ofNat 32 (4 * addr26.toNat))

/-- 42_control.md section 1 (the next-pc mux, derived there; D2): HOLD when the handler fails, else JUMP, BRANCH or
SEQ. The mux's HOLD is a step that raises an error. That the pc also holds when the stream ends the session in service 5
is 60_exceptions.md section 6 (end of input, by the spec's own decision D27, log 16; an unrecoverable failure). -/
def Obligations.NextPcMux : Prop :=
  ∀ (i : Instr) (s t : State), s.ended = none → exec i s = .next t →
    (Failed s t → t.machine.pc = s.machine.pc) ∧ (¬ Failed s t → t.machine.pc = nextPc i s)

/-! ## Syscall -/

/-- 43_syscall.md (service 1; D2 for the pc). -/
def Obligations.PrintIntegerCompletes : Prop :=
  ∀ (s : State) (rs rt rd : Reg) (shamt : Shamt), s32 (s.reg 2) = 1 →
    ∃ t, exec (.syscall rs rt rd shamt) s = .next t ∧ EmitsOnly s t (.outInt (s32 (s.reg 4)))

/-- 43_syscall.md (service 4; D10): the bytes from the byte address in x[4] up to the first zero byte, when that byte is
in the memory. -/
def Obligations.PrintStringCompletes : Prop :=
  ∀ (s : State) (rs rt rd : Reg) (shamt : Shamt) (a n : Nat), s32 (s.reg 2) = 4 → s32 (s.reg 4) = a →
    (∀ k, k < n → s.memByte (a + k) ≠ 0) → s.memByte (a + n) = 0 → (a + n) / 4 < s.cfg.memWords →
    ∃ t, exec (.syscall rs rt rd shamt) s = .next t ∧
      EmitsOnly s t (.outStr ((List.range n).map (fun k => s.memByte (a + k))))

/-- 43_syscall.md (service 4; D10): a negative address, or no zero byte up to the end of the memory, is OutOfBounds;
nothing is printed and nothing changes. -/
def Obligations.PrintStringOutOfBounds : Prop :=
  ∀ (s : State) (rs rt rd : Reg) (shamt : Shamt), s32 (s.reg 2) = 4 →
    (s32 (s.reg 4) < 0 ∨ ∀ a : Nat, s32 (s.reg 4) ≤ a → a / 4 < s.cfg.memWords → s.memByte a ≠ 0) →
    ∃ t, exec (.syscall rs rt rd shamt) s = .next t ∧ Reports s t (.outOfBounds (s32 (s.reg 4)))

/-- 43_syscall.md (byte packing; D10): lane 0 is the least significant byte under Little, the most significant under
Big. -/
def Obligations.StringBytesFollowTheByteOrder : Prop :=
  ∀ (s : State) (a : Nat),
    s.memByte a = (match s.cfg.strByteOrder with
      | .little => BitVec.ofNat 8 (u32 (s.readCell (a / 4)) / 2 ^ (8 * (a % 4)))
      | .big => BitVec.ofNat 8 (u32 (s.readCell (a / 4)) / 2 ^ (24 - 8 * (a % 4))))

/-- 43_syscall.md (service 5; D2, D28): the next input line's integer becomes x[2], and the line is consumed. -/
def Obligations.ReadIntegerCompletes : Prop :=
  ∀ (s : State) (rs rt rd : Reg) (shamt : Shamt) (text : List Char) (rest : Input) (v : Int),
    s32 (s.reg 2) = 5 → readLine s.input = .line text rest → parseInt text = some v →
    ∃ t, exec (.syscall rs rt rd shamt) s = .next t ∧ s32 (t.reg 2) = v ∧ SameRegsBut 2 s t ∧ SameMemory s t ∧
      t.machine.pc = s.machine.pc + 4 ∧ t.input = rest ∧ t.out = s.out ∧ t.cfg = s.cfg ∧ t.ended = s.ended ∧
      t.machine.halted = s.machine.halted

/-- 43_syscall.md (service 5; D12, D27) and 60_exceptions.md section 6: a line that is no integer is consumed and
reported with its whole text (log 14); at the end of the input, or when the stream fails, the session ends and the
syscall has no effect. -/
def Obligations.ReadIntegerWithoutAnInteger : Prop :=
  ∀ (s : State) (rs rt rd : Reg) (shamt : Shamt), s32 (s.reg 2) = 5 →
    (∀ text rest, readLine s.input = .line text rest → parseInt text = none →
      ∃ t, exec (.syscall rs rt rd shamt) s = .next t ∧
        Reports { s with input := rest } t (.inputFormat (.notInteger text))) ∧
    (readLine s.input = .endOfInput →
      exec (.syscall rs rt rd shamt) s = .next { s with ended := some .endOfInput }) ∧
    (readLine s.input = .failure → exec (.syscall rs rt rd shamt) s = .next { s with ended := some .failure })

/-- 43_syscall.md (service 10; D2 for the pc): halted is set. -/
def Obligations.ExitCompletes : Prop :=
  ∀ (s : State) (rs rt rd : Reg) (shamt : Shamt), s32 (s.reg 2) = 10 →
    ∃ t, exec (.syscall rs rt rd shamt) s = .next t ∧ t.machine.halted = true ∧
      t.machine.pc = s.machine.pc + 4 ∧ SameRegs s t ∧ SameMemory s t ∧ t.out = s.out ∧ t.cfg = s.cfg ∧
      t.input = s.input ∧ t.ended = s.ended

/-- 43_syscall.md (unknown codes; D9): every other signed value of the whole register is reported, changing nothing. -/
def Obligations.UnknownServiceIsReported : Prop :=
  ∀ (s : State) (rs rt rd : Reg) (shamt : Shamt),
    s32 (s.reg 2) ≠ 1 → s32 (s.reg 2) ≠ 4 → s32 (s.reg 2) ≠ 5 → s32 (s.reg 2) ≠ 10 →
    ∃ t, exec (.syscall rs rt rd shamt) s = .next t ∧ Reports s t (.unsupportedSyscall (s32 (s.reg 2)))

/-! ## The whole instruction set -/

/-- 60_exceptions.md section 1: no instruction stops the machine; whatever its operands and the state, it answers a next
state (an error is reported in it). -/
def Obligations.EveryInstructionAnswersNext : Prop := ∀ (i : Instr) (s : State), ∃ t, exec i s = .next t

/-- 10_state.md section 2 (the readers and writers table, derived there) and 20_memory.md section 1: no register but the
instruction's destination changes, and no byte but those sw stores to. -/
def Obligations.InstructionsWriteOnlyTheirDestinations : Prop :=
  ∀ (i : Instr) (s t : State), exec i s = .next t →
    (∀ r, ¬ writesReg i s r → t.reg r = s.reg r) ∧
    ((∀ rt rs imm, i ≠ .sw rt rs imm) → SameMemory s t) ∧
    (∀ rt rs imm, i = .sw rt rs imm → ∀ a : Nat,
      ((a : Int) < effectiveAddress rs imm s ∨ effectiveAddress rs imm s + 4 ≤ a) → t.memByte a = s.memByte a)

/-- 10_state.md R40: only service 10 writes halted, setting it; nothing clears it; no instruction reads it; while it is
true the block takes no step. -/
def Obligations.HaltedIsSetByExitOnlyAndIsTerminal : Prop :=
  (∀ (i : Instr) (s t : State), exec i s = .next t →
    t.machine.halted = s.machine.halted ∨
      (t.machine.halted = true ∧ s32 (s.reg 2) = 10 ∧ ∃ rs rt rd shamt, i = .syscall rs rt rd shamt)) ∧
  (∀ (i : Instr) (s t : State) (b : Bool), exec i s = .next t →
    ∃ b', exec i { s with machine := { s.machine with halted := b } } =
      .next { t with machine := { t.machine with halted := b' } }) ∧
  (∀ s : State, s.machine.halted = true → step s = .fault .halted)

/-! ## Steps of a session -/

/-- 00_scope.md section 5 (step) and 60_exceptions.md section 6: when the next line is the word of an instruction, the
step is that instruction's handler, after the line is consumed and the decoder's events are emitted (D20). -/
def Obligations.StepRunsTheDecodedInstruction : Prop :=
  ∀ (s : State) (text : List Char) (rest : Input) (w : Word) (es : List Event) (i : Instr),
    s.machine.halted = false → s.ended = none → readLine s.input = .line text rest → parseHex text = .ok w →
    decode s.cfg.aluExt w = ⟨es, .instr i⟩ → step s = exec i { s with input := rest, out := s.out ++ es }

/-- 60_exceptions.md section 6: a word placed as the next input line is the word the next step runs (log 9). -/
def Obligations.PlacedWordIsTheNextWord : Prop :=
  ∀ (s : State) (w : Word), s.machine.halted = false → s.ended = none →
    step (s.withFetchWord 32 w.toNat) = issue w s

/-- 60_exceptions.md R204: a line that is no word, and a word that no row of the dispatch table takes, are reported; the
line is consumed, nothing else changes, and the events emitted before dispatch stay. -/
def Obligations.DecodeErrorsAreReportedAndDiscarded : Prop :=
  ∀ (s : State) (text : List Char) (rest : Input), s.machine.halted = false → s.ended = none →
    readLine s.input = .line text rest →
    (∀ info, parseHex text = .error info →
      step s = .next { s with input := rest, out := s.out ++ [.err (.inputFormat info)] }) ∧
    (∀ w es e, parseHex text = .ok w → decode s.cfg.aluExt w = ⟨es, .reject e⟩ →
      step s = .next { s with input := rest, out := s.out ++ es ++ [.err e] })

/-- 60_exceptions.md section 6 (D27): when no line is left, or the stream fails, the session ends with MachineState as
it is, and takes no step after that. -/
def Obligations.StreamEndEndsTheSession : Prop :=
  (∀ s : State, s.machine.halted = false → s.ended = none →
    (readLine s.input = .endOfInput → step s = .next { s with ended := some .endOfInput }) ∧
    (readLine s.input = .failure → step s = .next { s with ended := some .failure })) ∧
  (∀ s : State, s.machine.halted = false → s.ended ≠ none → step s = .fault .sessionEnded)

/-- 60_exceptions.md section 5: a step answers a next state exactly while the block is Running and its session goes
on. -/
def Obligations.StepAnswersNextExactlyWhileRunning : Prop :=
  ∀ s : State, (∃ t, step s = .next t) ↔ (s.machine.halted = false ∧ s.ended = none)

/-- 60_exceptions.md R203: a step that reports an error leaves MachineState as it was, and the block is ready for the
next word. -/
def Obligations.FailedStepLeavesMachineState : Prop :=
  ∀ (s t : State) (es : List Event) (e : Error), step s = .next t → t.out = s.out ++ es → .err e ∈ es →
    t.machine = s.machine ∧ t.machine.halted = false ∧ t.ended = none

/-- 60_exceptions.md sections 1 and 2: a step adds events to the output, at most one of them an error, and that one the
last; a step that changes MachineState reports none. -/
def Obligations.StepReportsAtMostOneError : Prop :=
  ∀ s t : State, step s = .next t → ∃ es, t.out = s.out ++ es ∧ (es.filter Event.isErr).length ≤ 1 ∧
    (∀ e ∈ es.dropLast, e.isErr = false) ∧ (t.machine ≠ s.machine → ∀ e ∈ es, e.isErr = false)

/-- 10_state.md section 5 and section 6: no step changes a parameter, takes back an output event or puts input back. -/
def Obligations.StepKeepsParametersOutputAndInputOrder : Prop :=
  ∀ s t : State, step s = .next t →
    t.cfg = s.cfg ∧ s.out <+: t.out ∧ t.input.chars <:+ s.input.chars ∧ t.input.tail = s.input.tail

/-- Every step keeps the invariant: the memory canonical and inside MEM_WORDS cells (20_memory.md section 1), register
0's cell 0, the pc word-aligned (10_state.md section 3, derived there), MEM_WORDS in its bound. -/
def Obligations.EveryStepKeepsTheInvariant : Prop := ∀ s t : State, s.Inv → step s = .next t → t.Inv

/-- The state after reset is the reference launch (logs 2 to 6, 8: the values are the spec's reference values and the
model's choice of MEM_WORDS) and meets the invariant. -/
def Obligations.ResetIsTheReferenceLaunch : Prop :=
  State.reset = State.launch Config.reference Launch.reference ⟨[], .endOfInput⟩ ∧ State.reset.Inv

/-- 70_reset_and_hazards.md section 1 (D17): the start of a session with any parameters, launch and input the spec
allows. A cell that the launch's list leaves out starts at 0 (log 5). -/
def Obligations.LaunchGivesTheResetState : Prop :=
  ∀ (cfg : Config) (l : Launch) (inp : Input), cfg.wf → l.wf cfg →
    (State.launch cfg l inp).Inv ∧ (State.launch cfg l inp).cfg = cfg ∧
      (∀ r : Reg, (State.launch cfg l inp).reg r = if r = 0 then 0 else l.initRegs[r]) ∧
      (∀ i, i < cfg.memWords → (State.launch cfg l inp).readCell i = l.initMem.getD i 0) ∧
      (State.launch cfg l inp).machine.pc = l.initPc ∧ (State.launch cfg l inp).machine.halted = false ∧
      (State.launch cfg l inp).input = inp ∧ (State.launch cfg l inp).out = [] ∧
      (State.launch cfg l inp).ended = none

/-- 70_reset_and_hazards.md section 2, derived there: from a state whose registers and cells are all 0, no step makes a
register or a cell non-zero or sets halted. -/
def Obligations.AllZeroStateIsClosed : Prop :=
  ∀ s t : State, s.Inv → AllZero s → step s = .next t → AllZero t

/-- 10_state.md section 3 (derived there) and 20_memory.md section 4: the pc selects no instruction and no program can
observe it. Two sessions that differ only in the pc differ only in the pc after a step. -/
def Obligations.PcIsNotObservable : Prop :=
  ∀ (s : State) (p : Word),
    match step s with
    | .next t => ∃ q, step (s.setPc p) = .next (t.setPc q)
    | .fault r => step (s.setPc p) = .fault r
    | .refused _ => False

/-! ## The host's ports -/

/-- 60_exceptions.md R221: exactly 8 characters, each in [0-9A-Fa-f]; the word is their base-16 positional value, most
significant digit first. -/
def Obligations.HexParserReadsEightDigits : Prop :=
  (∀ d : Nat, d < 10 → hexDigit? (Char.ofNat (0x30 + d)) = some d) ∧
  (∀ d : Nat, d < 6 → hexDigit? (Char.ofNat (0x61 + d)) = some (10 + d) ∧
    hexDigit? (Char.ofNat (0x41 + d)) = some (10 + d)) ∧
  (∀ (c : Char) (d : Nat), hexDigit? c = some d → ('0' ≤ c ∧ c ≤ '9') ∨ ('a' ≤ c ∧ c ≤ 'f') ∨ ('A' ≤ c ∧ c ≤ 'F')) ∧
  (∀ (line : List Char) (w : Word), parseHex line = .ok w ↔
    line.length = 8 ∧ (∀ c ∈ line, (hexDigit? c).isSome) ∧
      u32 w = ((List.range 8).map (fun k => (hexDigit? (line.getD k '0')).getD 0 * 16 ^ (7 - k))).sum)

/-- 60_exceptions.md section 6 (what InputFormatError identifies): a line of the wrong length by its length, else the
first character that is no hex digit by its position (what the event records is the model's reading, log 13). -/
def Obligations.BadHexLineIsIdentified : Prop :=
  ∀ (line : List Char),
    (line.length ≠ 8 → parseHex line = .error (.wrongLength line line.length)) ∧
    (line.length = 8 → ∀ (c : Char) (before after : List Char), line = before ++ c :: after →
      (∀ d ∈ before, (hexDigit? d).isSome) → hexDigit? c = none →
      parseHex line = .error (.badCharacter line c before.length))

/-- 60_exceptions.md section 6 (round trip; 90_conflicts.md C3): parsing and formatting gives the line back up to the case
of its letters; and every formatted word parses to itself. The formatter's own case is the model's (log 9). -/
def Obligations.HexRoundTrip : Prop :=
  (∀ w : Word, parseHex (formatHex w) = .ok w) ∧
  (∀ (line : List Char) (w : Word), parseHex line = .ok w →
    (formatHex w).map Char.toLower = line.map Char.toLower)

/-- 60_exceptions.md section 6 (line terminator; D25): a line ends at a line feed, which is stripped with one carriage
return before it; a last line without a terminator is a line. The clause on a failing stream is the model's reading
(log 11). -/
def Obligations.LinesEndAtLineFeeds : Prop :=
  ∀ (text rest : List Char) (tail : StreamTail), '\n' ∉ text →
    (text.getLast? ≠ some '\r' → readLine ⟨text ++ '\n' :: rest, tail⟩ = .line text ⟨rest, tail⟩) ∧
    readLine ⟨text ++ '\r' :: '\n' :: rest, tail⟩ = .line text ⟨rest, tail⟩ ∧
    (text ≠ [] → readLine ⟨text, .endOfInput⟩ = .line text ⟨[], .endOfInput⟩) ∧
    readLine ⟨[], .endOfInput⟩ = .endOfInput ∧ readLine ⟨text, .failure⟩ = .failure

/-- 60_exceptions.md section 6 (service-5 line; D28): blanks at both ends, an optional sign, one or more decimal digits
whose value is a signed 32-bit one; and no other line is an integer. -/
def Obligations.IntegerLineSyntax : Prop :=
  ∀ (text : List Char) (v : Int), parseInt text = some v ↔
    ∃ (left right sign : List Char) (digits : List Nat),
      text = left ++ sign ++ digits.map (fun d => Char.ofNat (0x30 + d)) ++ right ∧
      (∀ c ∈ left ++ right, c = ' ' ∨ c = '\t') ∧ (sign = [] ∨ sign = ['+'] ∨ sign = ['-']) ∧
      digits ≠ [] ∧ (∀ d ∈ digits, d < 10) ∧
      v = (if sign = ['-'] then -1 else 1) * (digits.foldl (fun acc d => 10 * acc + d) 0 : Nat) ∧
      -(2 ^ 31) ≤ v ∧ v < 2 ^ 31

/-- 43_syscall.md (the decimal form; D11, D28): the text of a printed integer reads back as that integer, starts with
`-` exactly when it is negative, and has no leading zero but in the text of 0. -/
def Obligations.PrintedIntegerReadsBack : Prop :=
  ∀ v : Int, -(2 ^ 31) ≤ v → v < 2 ^ 31 →
    parseInt (renderInt v) = some v ∧ ((renderInt v).head? = some '-' ↔ v < 0) ∧
      (v ≠ 0 → (renderInt v).find? (fun c => c ≠ '-') ≠ some '0') ∧ (v = 0 → renderInt v = ['0'])

/-! ## The decoder -/

/-- 30_encoding.md sections 3 and 5: the decoder gives every instruction of the block back from its word, with every
field, ignored ones too. -/
def Obligations.DecodeOfEncodeIsTheInstruction : Prop :=
  ∀ (aluExt : Bool) (i : Instr), i.wf aluExt = true → (decode aluExt (encode i)).result = .instr i

/-- 30_encoding.md sections 3 and 6: an instruction is decoded from one word only, its encoding, and exists in the block
it was decoded for. -/
def Obligations.EncodeOfDecodeIsTheWord : Prop :=
  ∀ (aluExt : Bool) (w : Word) (i : Instr), (decode aluExt w).result = .instr i → encode i = w ∧ i.wf aluExt = true

/-- 30_encoding.md R77, with the fields of R74, R75, R76: in each format the fields are the named bits of the word, they
rebuild the word, and the encoder that reads the same equation right to left gives the word. -/
def Obligations.FieldsRebuildTheWord : Prop :=
  ∀ w : Word, opcodeOf w = (w.extractLsb' 26 6).toNat ∧
    (∃ (rs rt rd : Reg) (shamt : Shamt) (funct : BitVec 6),
      extract .r w = .r rs rt rd shamt.toNat funct.toNat ∧
      rs.val = (w.extractLsb' 21 5).toNat ∧ rt.val = (w.extractLsb' 16 5).toNat ∧
      rd.val = (w.extractLsb' 11 5).toNat ∧ shamt = w.extractLsb' 6 5 ∧ funct = w.extractLsb' 0 6 ∧
      w = BitVec.ofNat 32 (opcodeOf w) <<< 26 ||| BitVec.ofNat 32 rs <<< 21 ||| BitVec.ofNat 32 rt <<< 16 |||
        BitVec.ofNat 32 rd <<< 11 ||| shamt.zeroExtend 32 <<< 6 ||| funct.zeroExtend 32 ∧
      packR (opcodeOf w) rs rt rd shamt funct.toNat = w) ∧
    (∃ (rs rt : Reg) (imm : Imm), extract .i w = .i rs rt imm.toNat ∧
      rs.val = (w.extractLsb' 21 5).toNat ∧ rt.val = (w.extractLsb' 16 5).toNat ∧ imm = w.extractLsb' 0 16 ∧
      w = BitVec.ofNat 32 (opcodeOf w) <<< 26 ||| BitVec.ofNat 32 rs <<< 21 ||| BitVec.ofNat 32 rt <<< 16 |||
        imm.zeroExtend 32 ∧
      packI (opcodeOf w) rs rt imm = w) ∧
    (∃ addr26 : Addr26, extract .j w = .j addr26.toNat ∧ addr26 = w.extractLsb' 0 26 ∧
      w = BitVec.ofNat 32 (opcodeOf w) <<< 26 ||| addr26.zeroExtend 32 ∧ packJ (opcodeOf w) addr26 = w)

/-- 30_encoding.md section 2: the format is a function of bits 31 to 26 alone, whatever ALU_EXT is; every other opcode is
UnsupportedOpcode. The last clause, that a word with a format emits its Diag event first, is section 7 and rests on the
spec's own decision D20 (log 16). -/
def Obligations.FormatIsAFunctionOfTheOpcode : Prop :=
  ∀ (w : Word) (aluExt : Bool),
    opcodeOf w = (w.extractLsb' 26 6).toNat ∧ opcodeOf w < 64 ∧
    classify (opcodeOf w) =
      (if w.extractLsb' 26 6 = 0b000000#6 then some .r
       else if w.extractLsb' 26 6 = 0b000010#6 then some .j
       else if w.extractLsb' 26 6 = 0b000100#6 then some .i
       else if w.extractLsb' 26 6 = 0b100011#6 then some .i
       else if w.extractLsb' 26 6 = 0b101011#6 then some .i
       else none) ∧
    (classify (opcodeOf w) = none → (decode aluExt w).result = .reject (.unsupportedOpcode (opcodeOf w) w)) ∧
    (∀ fmt, classify (opcodeOf w) = some fmt → ∃ es, (decode aluExt w).events = .diag fmt :: es)

/-- 30_encoding.md R82: the 59 illegal opcodes; their words are reported, change no state and are discarded, and the
next line is read after them. -/
def Obligations.IllegalOpcodesAreReported : Prop :=
  ((List.range 64).filter (fun op => (classify op).isNone)).length = 59 ∧
  (∀ op x : Nat, op < 64 → x < 2 ^ 26 → opcodeOf (BitVec.ofNat 32 (op * 2 ^ 26 + x)) = op) ∧
  (∀ (s : State) (text : List Char) (rest : Input) (w : Word), s.machine.halted = false → s.ended = none →
    readLine s.input = .line text rest → parseHex text = .ok w →
    opcodeOf w ≠ 0x00 → opcodeOf w ≠ 0x02 → opcodeOf w ≠ 0x04 → opcodeOf w ≠ 0x23 → opcodeOf w ≠ 0x2B →
    step s = .next { s with input := rest, out := s.out ++ [.err (.unsupportedOpcode (opcodeOf w) w)] })

/-- 30_encoding.md section 6 and 40_alu.md section 2 (D13, D20): a word of opcode 0 whose funct is in no row of the
block's table is reported after its diagnostics, and changes no state; 56 functs are illegal with ALU_EXT, 62
without. -/
def Obligations.IllegalFunctsAreReported : Prop :=
  (∀ (s : State) (text : List Char) (rest : Input) (w : Word), s.machine.halted = false → s.ended = none →
    readLine s.input = .line text rest → parseHex text = .ok w → opcodeOf w = 0 →
    (bits w 5 0 ∉ (if s.cfg.aluExt then [0x00, 0x02, 0x0C, 0x20, 0x22, 0x24, 0x25, 0x26] else [0x0C, 0x20])) →
    (decode s.cfg.aluExt w).events.length = 2 ∧
      step s = .next { s with
        input := rest
        out := s.out ++ (decode s.cfg.aluExt w).events ++ [.err (.unsupportedFunct (bits w 5 0) w)] }) ∧
  (∀ aluExt : Bool, ((List.range 64).filter (fun f => (decode aluExt (BitVec.ofNat 32 f)).result.instr?.isNone)).length =
    if aluExt then 56 else 62)

/-- 30_encoding.md section 3 (the range check, derived there): it refuses an index above 31, and no word makes it
fail. -/
def Obligations.FieldRangeErrorIsNeverRaised : Prop :=
  (∀ (field : FieldName) (value : Nat), 32 ≤ value → checkReg field value = .error (.fieldRange field value)) ∧
  (∀ (aluExt : Bool) (w : Word) (field : FieldName) (value : Nat),
    (decode aluExt w).result ≠ .reject (.fieldRange field value))

/-- 30_encoding.md sections 6 and 7 (derived there): every word is an instruction of the block, an UnsupportedOpcode word
or an UnsupportedFunct word. -/
def Obligations.EveryWordHasOneDecoding : Prop :=
  ∀ (aluExt : Bool) (w : Word),
    (∃ i, (decode aluExt w).result = .instr i ∧ i.wf aluExt = true) ∨
    ((decode aluExt w).result = .reject (.unsupportedOpcode (opcodeOf w) w) ∧ classify (opcodeOf w) = none) ∨
    ((decode aluExt w).result = .reject (.unsupportedFunct (bits w 5 0) w) ∧ opcodeOf w = 0)

/-- 30_encoding.md section 7 (D20): the diagnostic of each format, with the word's fields for R-format, and its place
before every event of the handler. -/
def Obligations.DiagnosticsComeBeforeTheHandler : Prop :=
  (∀ (aluExt : Bool) (w : Word),
    (opcodeOf w = 0 → ∃ (rs rt rd : Reg) (shamt : Shamt) (funct : BitVec 6),
      (decode aluExt w).events = [.diag .r, .fields rs rt rd shamt funct] ∧
      rs.val = bits w 25 21 ∧ rt.val = bits w 20 16 ∧ rd.val = bits w 15 11 ∧ shamt.toNat = bits w 10 6 ∧
      funct.toNat = bits w 5 0) ∧
    (classify (opcodeOf w) = some .i → (decode aluExt w).events = [.diag .i]) ∧
    (classify (opcodeOf w) = some .j → (decode aluExt w).events = [.diag .j]) ∧
    (classify (opcodeOf w) = none → (decode aluExt w).events = [])) ∧
  (∀ (w : Word) (s t : State), issue w s = .next t → ∃ es, t.out = s.out ++ (decode s.cfg.aluExt w).events ++ es)

/-- 30_encoding.md section 5 (D16): a word whose ignored fields are not zero decodes to the same instruction as the word
with those fields zero, up to the fields, and has the same effect. -/
def Obligations.IgnoredFieldsHaveNoEffect : Prop :=
  ∀ (rs rt rd : Reg) (shamt : Shamt) (s : State),
    (∀ funct mk, (funct, mk) ∈ [(0x20, Instr.add), (0x22, Instr.sub), (0x24, Instr.and), (0x25, Instr.or),
        (0x26, Instr.xor)] →
      (decode true (packR 0 rs rt rd shamt funct)).result = .instr (mk rd rs rt shamt) ∧
      exec (mk rd rs rt shamt) s = exec (mk rd rs rt 0) s) ∧
    (∀ funct mk, (funct, mk) ∈ [(0x00, Instr.sll), (0x02, Instr.srl)] →
      (decode true (packR 0 rs rt rd shamt funct)).result = .instr (mk rd rt shamt rs) ∧
      exec (mk rd rt shamt rs) s = exec (mk rd rt shamt 0) s) ∧
    (decode true (packR 0 rs rt rd shamt 0x0C)).result = .instr (.syscall rs rt rd shamt) ∧
    exec (.syscall rs rt rd shamt) s = exec (.syscall 0 0 0 0) s

/-- Words written out bit by bit from the encodings of 30_encoding.md sections 2, 3 and 5, one or more of each family. -/
def Obligations.SampleWordsDecode : Prop :=
  (decode true 0b000000_00001_00010_00101_00000_100000#32).result = .instr (.add 5 1 2 0) ∧
  (decode true 0b000000_00001_00010_00011_00000_100010#32).result = .instr (.sub 3 1 2 0) ∧
  (decode true 0b000000_11111_00010_00011_00100_000000#32).result = .instr (.sll 3 2 4 31) ∧
  (decode true 0b000000_11111_11111_11111_11111_001100#32).result = .instr (.syscall 31 31 31 31) ∧
  (decode true 0b100011_01001_01000_0000000000000100#32).result = .instr (.lw 8 9 4) ∧
  (decode true 0b101011_01001_01000_0000000000000100#32).result = .instr (.sw 8 9 4) ∧
  (decode true 0b000100_00001_00010_0000000000000011#32).result = .instr (.beq 1 2 3) ∧
  (decode true 0b000010_11111111111111111111111111#32).result = .instr (.j 0x3FFFFFF) ∧
  (decode false 0b000000_00001_00010_00011_00000_100010#32).result =
    .reject (.unsupportedFunct 0x22 0b000000_00001_00010_00011_00000_100010#32)
end

