-- ==== Sys2Proof/Laws/Decode.lean ====
section
/-! SUPPORT. Field extraction and the field equations, as arithmetic on the word's unsigned value. -/

namespace Sys2Proof

theorem bits_eq (w : Word) (hi lo : Nat) : bits w hi lo = w.toNat / 2 ^ lo % 2 ^ (hi - lo + 1) := by
  unfold bits; rw [Nat.and_two_pow_sub_one_eq_mod, Nat.shiftRight_eq_div_pow]

theorem bits_lt (w : Word) (hi lo : Nat) : bits w hi lo < 2 ^ (hi - lo + 1) := by
  rw [bits_eq]; exact Nat.mod_lt _ (Nat.two_pow_pos _)

/-- A field above another: the `or` of disjoint bits is a sum. -/
theorem shift_or (a k b : Nat) (h : b < 2 ^ k) : a <<< k ||| b = a * 2 ^ k + b := by
  rw [← Nat.shiftLeft_add_eq_or_of_lt h, Nat.shiftLeft_eq]

/-- The R-format equation of R77 is a sum, the fields being disjoint. -/
theorem packR_toNat (opcode : Nat) (rs rt rd : Reg) (shamt : Shamt) (funct : Nat) (ho : opcode < 64)
    (hf : funct < 64) :
    (packR opcode rs rt rd shamt funct).toNat =
      opcode * 2 ^ 26 + rs.val * 2 ^ 21 + rt.val * 2 ^ 16 + rd.val * 2 ^ 11 + shamt.toNat * 2 ^ 6 + funct := by
  have h1 := rs.isLt; have h2 := rt.isLt; have h3 := rd.isLt; have h4 := shamt.isLt
  have e : opcode <<< 26 ||| rs.val <<< 21 ||| rt.val <<< 16 ||| rd.val <<< 11 ||| shamt.toNat <<< 6 ||| funct =
      opcode * 2 ^ 26 + rs.val * 2 ^ 21 + rt.val * 2 ^ 16 + rd.val * 2 ^ 11 + shamt.toNat * 2 ^ 6 + funct := by
    simp only [Nat.or_assoc]
    rw [shift_or shamt.toNat 6 _ (by omega), shift_or rd.val 11 _ (by omega), shift_or rt.val 16 _ (by omega),
      shift_or rs.val 21 _ (by omega), shift_or opcode 26 _ (by omega)]
    omega
  unfold packR
  rw [e, BitVec.toNat_ofNat, Nat.mod_eq_of_lt (by omega)]

/-- The I-format equation of R77 as a sum. -/
theorem packI_toNat (opcode : Nat) (rs rt : Reg) (imm : Imm) (ho : opcode < 64) :
    (packI opcode rs rt imm).toNat = opcode * 2 ^ 26 + rs.val * 2 ^ 21 + rt.val * 2 ^ 16 + imm.toNat := by
  have h1 := rs.isLt; have h2 := rt.isLt; have h3 := imm.isLt
  have e : opcode <<< 26 ||| rs.val <<< 21 ||| rt.val <<< 16 ||| imm.toNat =
      opcode * 2 ^ 26 + rs.val * 2 ^ 21 + rt.val * 2 ^ 16 + imm.toNat := by
    simp only [Nat.or_assoc]
    rw [shift_or rt.val 16 _ (by omega), shift_or rs.val 21 _ (by omega), shift_or opcode 26 _ (by omega)]
    omega
  unfold packI
  rw [e, BitVec.toNat_ofNat, Nat.mod_eq_of_lt (by omega)]

/-- The J-format equation of R77 as a sum. -/
theorem packJ_toNat (opcode : Nat) (addr26 : Addr26) (ho : opcode < 64) :
    (packJ opcode addr26).toNat = opcode * 2 ^ 26 + addr26.toNat := by
  have h1 := addr26.isLt
  unfold packJ
  rw [shift_or opcode 26 _ h1, BitVec.toNat_ofNat, Nat.mod_eq_of_lt (by omega)]

/-- The range check of R78 passes on every register field of a word. -/
theorem checkReg_bits (field : FieldName) (n : Nat) (h : n < 32) : checkReg field n = .ok ⟨n, h⟩ := by
  simp [checkReg, h]

/-- The opcode is below 64 (R72). -/
theorem opcodeOf_lt (w : Word) : opcodeOf w < 64 := bits_lt w 31 26

/-- The four fields of an opcode the classifier knows (R73). -/
theorem classify_cases {opcode : Nat} {fmt : Format} (h : classify opcode = some fmt) :
    (opcode = 0x00 ∧ fmt = .r) ∨ (opcode = 0x02 ∧ fmt = .j) ∨
      ((opcode = 0x04 ∨ opcode = 0x23 ∨ opcode = 0x2B) ∧ fmt = .i) := by
  unfold classify at h
  split_ifs at h <;> simp_all

/-- The decode of an R-format word: the check never fails (R78), so its fields are those of the shifter. -/
theorem decode_r (aluExt : Bool) (w : Word) (h : opcodeOf w = 0) :
    decode aluExt w =
      ⟨diagnostics (.r ⟨bits w 25 21, bits_lt w 25 21⟩ ⟨bits w 20 16, bits_lt w 20 16⟩ ⟨bits w 15 11, bits_lt w 15 11⟩
          (BitVec.ofNat 5 (bits w 10 6)) (BitVec.ofNat 6 (bits w 5 0))),
        dispatch aluExt w (.r ⟨bits w 25 21, bits_lt w 25 21⟩ ⟨bits w 20 16, bits_lt w 20 16⟩
          ⟨bits w 15 11, bits_lt w 15 11⟩ (BitVec.ofNat 5 (bits w 10 6)) (BitVec.ofNat 6 (bits w 5 0)))⟩ := by
  simp only [decode, h, classify, extract, checkFields, checkReg_bits .rs _ (bits_lt w 25 21),
    checkReg_bits .rt _ (bits_lt w 20 16), checkReg_bits .rd _ (bits_lt w 15 11), if_pos]

/-- The decode of an I-format word. -/
theorem decode_i (aluExt : Bool) (w : Word) (h : classify (opcodeOf w) = some .i) :
    decode aluExt w =
      ⟨diagnostics (.i ⟨bits w 25 21, bits_lt w 25 21⟩ ⟨bits w 20 16, bits_lt w 20 16⟩ (BitVec.ofNat 16 (bits w 15 0))),
        dispatch aluExt w (.i ⟨bits w 25 21, bits_lt w 25 21⟩ ⟨bits w 20 16, bits_lt w 20 16⟩
          (BitVec.ofNat 16 (bits w 15 0)))⟩ := by
  simp only [decode, h, extract, checkFields, checkReg_bits .rs _ (bits_lt w 25 21),
    checkReg_bits .rt _ (bits_lt w 20 16)]

/-- The decode of a J-format word. -/
theorem decode_j (aluExt : Bool) (w : Word) (h : opcodeOf w = 2) :
    decode aluExt w = ⟨[.diag .j], .instr (.j (BitVec.ofNat 26 (bits w 25 0)))⟩ := by
  simp [decode, h, classify, extract, checkFields, diagnostics, dispatch]

/-- A word of an unknown opcode: no diagnostic, UnsupportedOpcode (R82). -/
theorem decode_none (aluExt : Bool) (w : Word) (h : classify (opcodeOf w) = none) :
    decode aluExt w = ⟨[], .reject (.unsupportedOpcode (opcodeOf w) w)⟩ := by
  simp [decode, h]

end Sys2Proof
end

