-- ==== Sys2Proof/Laws/Memory.lean ====
section
/-! SUPPORT. The memory: read after write, and the canonical form that every write keeps. -/

namespace Sys2Proof.Machine

/-! Bytes -/

theorem Memory.readByte_cons (a c : Nat) (b : Byte) (m : Memory) (hm : ∀ p ∈ m, a < p.1) :
    (Memory.cons a b m).readByte c = if c = a then b else m.readByte c := by
  have hskip : ∀ m : Memory, (∀ p ∈ m, a < p.1) → m.readByte a = unlistedByte := by
    intro m
    induction m with
    | nil => intro _; rfl
    | cons p m ih =>
      obtain ⟨k, v⟩ := p
      intro h
      have hk : a < k := h (k, v) (by simp)
      simp only [Memory.readByte, if_neg (by omega : ¬ k = a)]
      exact ih (fun p hp => h p (by simp [hp]))
  unfold Memory.cons
  by_cases hb : b = unlistedByte <;> by_cases hc : c = a
  · subst hc; simp [hb, hskip m hm]
  · simp [hb, hc]
  · subst hc; simp [hb, Memory.readByte]
  · simp [hb, hc, Memory.readByte, Ne.symm hc]

/-- A write leaves every other byte alone, in any memory. -/
theorem Memory.readByte_writeByte_of_ne (m : Memory) {a c : Nat} (b : Byte) (h : c ≠ a) :
    (m.writeByte a b).readByte c = m.readByte c := by
  have hcons : ∀ m : Memory, (Memory.cons a b m).readByte c = m.readByte c := by
    intro m; unfold Memory.cons; split <;> simp [Memory.readByte, Ne.symm h]
  induction m with
  | nil => exact hcons []
  | cons p m ih =>
    obtain ⟨k, v⟩ := p
    simp only [Memory.writeByte]
    split
    · exact hcons _
    · split
      · rename_i _ hk
        rw [hcons]; simp [Memory.readByte, ← hk, Ne.symm h]
      · simp only [Memory.readByte, ih]

/-- A byte reads as the value last written, in a canonical memory. -/
theorem Memory.readByte_writeByte_self (m : Memory) (a : Nat) (b : Byte) (hm : m.wf) :
    (m.writeByte a b).readByte a = b := by
  induction m with
  | nil => simp [Memory.writeByte, Memory.readByte_cons]
  | cons p m ih =>
    obtain ⟨k, v⟩ := p
    obtain ⟨hs, hz⟩ := hm
    obtain ⟨hk, hs⟩ := List.pairwise_cons.mp hs
    simp only [Memory.writeByte]
    split
    · rename_i hlt
      rw [Memory.readByte_cons _ _ _ _ (by
        intro p hp
        rcases List.mem_cons.mp hp with rfl | hp
        · exact hlt
        · exact Nat.lt_trans hlt (hk p hp))]
      simp
    · split
      · rename_i _ heq
        subst heq
        rw [Memory.readByte_cons _ _ _ _ hk]; simp
      · rename_i _ hne
        simp only [Memory.readByte, if_neg (Ne.symm hne)]
        exact ih ⟨hs, fun c hc => hz c (by simp [hc])⟩

theorem Memory.readByte_writeByte (m : Memory) (a c : Nat) (b : Byte) (hm : m.wf) :
    (m.writeByte a b).readByte c = if c = a then b else m.readByte c := by
  by_cases h : c = a
  · subst h; simp [Memory.readByte_writeByte_self _ _ _ hm]
  · simp [h, Memory.readByte_writeByte_of_ne _ _ h]

/-- Every entry after a write is an old entry or the byte written. -/
theorem Memory.mem_writeByte {m : Memory} {a : Nat} {b : Byte} {p : Host.Cell} (h : p ∈ m.writeByte a b) :
    p ∈ m ∨ p = (a, b) := by
  induction m with
  | nil => unfold Memory.writeByte Memory.cons at h; split at h <;> simp_all
  | cons q m ih =>
    obtain ⟨k, v⟩ := q
    simp only [Memory.writeByte, Memory.cons] at h
    split at h
    · split at h <;> simp_all
      tauto
    · split at h
      · split at h <;> simp_all
        tauto
      · rcases List.mem_cons.mp h with rfl | h
        · simp
        · rcases ih h with h | h <;> simp [h]

/-- A write keeps the canonical form. -/
theorem Memory.wf_writeByte (m : Memory) (a : Nat) (b : Byte) (hm : m.wf) : (m.writeByte a b).wf := by
  have hcons : ∀ m : Memory, m.wf → (∀ p ∈ m, a < p.1) → (Memory.cons a b m).wf := by
    intro m hm hlt
    unfold Memory.cons
    split
    · exact hm
    · rename_i hb
      refine ⟨List.pairwise_cons.mpr ⟨hlt, hm.1⟩, fun c hc => ?_⟩
      rcases List.mem_cons.mp hc with rfl | hc
      · exact hb
      · exact hm.2 c hc
  induction m with
  | nil => exact hcons [] hm (by simp)
  | cons p m ih =>
    obtain ⟨k, v⟩ := p
    obtain ⟨hk, hs⟩ := List.pairwise_cons.mp hm.1
    have hm' : Memory.wf m := ⟨hs, fun c hc => hm.2 c (by simp [hc])⟩
    simp only [Memory.writeByte]
    split
    · rename_i hlt
      refine hcons _ hm (fun p hp => ?_)
      rcases List.mem_cons.mp hp with rfl | hp
      · exact hlt
      · exact Nat.lt_trans hlt (hk p hp)
    · split
      · rename_i _ heq
        exact hcons _ hm' (heq ▸ hk)
      · rename_i hlt hne
        refine ⟨List.pairwise_cons.mpr ⟨fun p hp => ?_, (ih hm').1⟩, fun c hc => ?_⟩
        · rcases Memory.mem_writeByte hp with hp | rfl
          · exact hk p hp
          · show k < a; omega
        · rcases List.mem_cons.mp hc with rfl | hc
          · exact hm.2 _ (by simp)
          · exact (ih hm').2 c hc

/-! Cells -/

theorem Memory.wf_writeCell (m : Memory) (i : Nat) (v : Word) (hm : m.wf) : (m.writeCell i v).wf := by
  unfold Memory.writeCell
  exact Memory.wf_writeByte _ _ _ (Memory.wf_writeByte _ _ _ (Memory.wf_writeByte _ _ _ (Memory.wf_writeByte _ _ _ hm)))

/-- Every entry after a cell is written is an old entry or one of the four bytes of that cell. -/
theorem Memory.mem_writeCell {m : Memory} {i : Nat} {v : Word} {p : Host.Cell} (h : p ∈ m.writeCell i v) :
    p ∈ m ∨ p.1 / 4 = i := by
  unfold Memory.writeCell at h
  rcases Memory.mem_writeByte h with h | rfl
  · rcases Memory.mem_writeByte h with h | rfl
    · rcases Memory.mem_writeByte h with h | rfl
      · rcases Memory.mem_writeByte h with h | rfl
        · exact .inl h
        · right; show 4 * i / 4 = i; omega
      · right; show (4 * i + 1) / 4 = i; omega
    · right; show (4 * i + 2) / 4 = i; omega
  · right; show (4 * i + 3) / 4 = i; omega

/-- A byte outside a cell is left alone, in any memory. -/
theorem Memory.readByte_writeCell_of_ne (m : Memory) {i c : Nat} (v : Word) (h : c / 4 ≠ i) :
    (m.writeCell i v).readByte c = m.readByte c := by
  unfold Memory.writeCell
  rw [Memory.readByte_writeByte_of_ne _ _ (by omega), Memory.readByte_writeByte_of_ne _ _ (by omega),
    Memory.readByte_writeByte_of_ne _ _ (by omega), Memory.readByte_writeByte_of_ne _ _ (by omega)]

/-- The four bytes of a word, put together, are the word. -/
theorem bytes_append (v : Word) :
    (v.extractLsb' 24 8 ++ v.extractLsb' 16 8 ++ v.extractLsb' 8 8 ++ v.extractLsb' 0 8 : BitVec 32) = v := by
  ext i hi
  simp only [BitVec.getElem_append, BitVec.getElem_extractLsb']
  split_ifs <;> rw [BitVec.getLsbD_eq_getElem (by omega)] <;> congr 1 <;> omega

/-- A cell reads as the word last written, in a canonical memory (20_memory.md R60). -/
theorem Memory.readCell_writeCell_self (m : Memory) (i : Nat) (v : Word) (hm : m.wf) :
    (m.writeCell i v).readCell i = v := by
  have h1 := Memory.wf_writeByte m (4 * i) (v.extractLsb' 0 8) hm
  have h2 := Memory.wf_writeByte _ (4 * i + 1) (v.extractLsb' 8 8) h1
  have h3 := Memory.wf_writeByte _ (4 * i + 2) (v.extractLsb' 16 8) h2
  unfold Memory.writeCell Memory.readCell
  simp only [Memory.readByte_writeByte _ _ _ _ h3, Memory.readByte_writeByte _ _ _ _ h2,
    Memory.readByte_writeByte _ _ _ _ h1, Memory.readByte_writeByte _ _ _ _ hm]
  simpa using bytes_append v

/-- With nothing listed every cell reads 0 (log 5). -/
@[simp] theorem Memory.readCell_nil (i : Nat) : Memory.readCell [] i = 0 := by
  simp only [Memory.readCell, Memory.readByte, unlistedByte]; decide

/-- A write leaves every other cell alone, in any memory. -/
theorem Memory.readCell_writeCell_of_ne (m : Memory) {i j : Nat} (v : Word) (h : j ≠ i) :
    (m.writeCell i v).readCell j = m.readCell j := by
  unfold Memory.readCell
  rw [Memory.readByte_writeCell_of_ne _ _ (by omega), Memory.readByte_writeCell_of_ne _ _ (by omega),
    Memory.readByte_writeCell_of_ne _ _ (by omega), Memory.readByte_writeCell_of_ne _ _ (by omega)]

theorem Memory.readCell_writeCell (m : Memory) (i j : Nat) (v : Word) (hm : m.wf) :
    (m.writeCell i v).readCell j = if j = i then v else m.readCell j := by
  by_cases h : j = i
  · subst h; simp [Memory.readCell_writeCell_self _ _ _ hm]
  · simp [h, Memory.readCell_writeCell_of_ne _ _ h]

/-- A byte outside the cell written is as before, under either byte order. -/
theorem Memory.memByte_writeCell_of_ne (order : ByteOrder) (m : Memory) {i a : Nat} (v : Word) (h : a / 4 ≠ i) :
    (m.writeCell i v).memByte order a = m.memByte order a := by
  unfold Memory.memByte; rw [Memory.readCell_writeCell_of_ne _ _ h]

/-! The same of a session -/

theorem State.writeCell_readCell (s : State) (i j : Nat) (v : Word) (hm : s.machine.mem.wf) :
    (s.writeCell i v).readCell j = if j = i then v else s.readCell j := Memory.readCell_writeCell _ _ _ _ hm

theorem State.writeCell_memByte_of_ne (s : State) {i a : Nat} (v : Word) (h : a / 4 ≠ i) :
    (s.writeCell i v).memByte a = s.memByte a := Memory.memByte_writeCell_of_ne _ _ _ h

/-! The cells of a launch -/

theorem Memory.wf_placeWords (ws : List Word) : ∀ (i : Nat) (m : Memory), m.wf → (Memory.placeWords i ws m).wf := by
  induction ws with
  | nil => intro i m hm; exact hm
  | cons w ws ih => intro i m hm; exact ih _ _ (Memory.wf_writeCell _ _ _ hm)

theorem Memory.mem_placeWords (ws : List Word) :
    ∀ (i : Nat) (m : Memory) (p : Host.Cell), p ∈ Memory.placeWords i ws m → p ∈ m ∨ p.1 / 4 < i + ws.length := by
  induction ws with
  | nil => intro i m p h; exact .inl h
  | cons w ws ih =>
    intro i m p h
    rcases ih _ _ p h with h | h
    · rcases Memory.mem_writeCell h with h | h
      · exact .inl h
      · right; simp; omega
    · right; simp; omega

theorem Memory.readCell_placeWords (ws : List Word) :
    ∀ (i : Nat) (m : Memory) (j : Nat), m.wf →
      (Memory.placeWords i ws m).readCell j = if i ≤ j then ws.getD (j - i) (m.readCell j) else m.readCell j := by
  induction ws with
  | nil => intro i m j _; simp [Memory.placeWords]
  | cons w ws ih =>
    intro i m j hm
    simp only [Memory.placeWords]
    rw [ih _ _ _ (Memory.wf_writeCell _ _ _ hm), Memory.readCell_writeCell _ _ _ _ hm]
    by_cases h : i + 1 ≤ j
    · obtain ⟨k, rfl⟩ := Nat.exists_eq_add_of_le h
      simp [show i ≤ i + 1 + k by omega, show i + 1 + k - i = k + 1 by omega, show i + 1 + k ≠ i by omega]
    · by_cases hj : j = i
      · subst hj; simp
      · simp [h, hj, show ¬ i ≤ j by omega]

end Sys2Proof.Machine
end

