-- ==== Sys2Proof/Laws/State.lean ====
section
/-! SUPPORT. What each field of a state is after each update: one lemma per field and update. -/

namespace Sys2Proof.Machine

@[simp] theorem State.setPc_cfg (s : State) (p : Word) : (s.setPc p).cfg = s.cfg := rfl
@[simp] theorem State.setPc_regs (s : State) (p : Word) : (s.setPc p).machine.regs = s.machine.regs := rfl
@[simp] theorem State.setPc_mem (s : State) (p : Word) : (s.setPc p).machine.mem = s.machine.mem := rfl
@[simp] theorem State.setPc_pc (s : State) (p : Word) : (s.setPc p).machine.pc = p := rfl
@[simp] theorem State.setPc_halted (s : State) (p : Word) : (s.setPc p).machine.halted = s.machine.halted := rfl
@[simp] theorem State.setPc_input (s : State) (p : Word) : (s.setPc p).input = s.input := rfl
@[simp] theorem State.setPc_out (s : State) (p : Word) : (s.setPc p).out = s.out := rfl
@[simp] theorem State.setPc_ended (s : State) (p : Word) : (s.setPc p).ended = s.ended := rfl

@[simp] theorem State.advancePc_cfg (s : State) : (s.advancePc).cfg = s.cfg := rfl
@[simp] theorem State.advancePc_regs (s : State) : (s.advancePc).machine.regs = s.machine.regs := rfl
@[simp] theorem State.advancePc_mem (s : State) : (s.advancePc).machine.mem = s.machine.mem := rfl
@[simp] theorem State.advancePc_pc (s : State) : (s.advancePc).machine.pc = s.machine.pc + 4 := rfl
@[simp] theorem State.advancePc_halted (s : State) : (s.advancePc).machine.halted = s.machine.halted := rfl
@[simp] theorem State.advancePc_input (s : State) : (s.advancePc).input = s.input := rfl
@[simp] theorem State.advancePc_out (s : State) : (s.advancePc).out = s.out := rfl
@[simp] theorem State.advancePc_ended (s : State) : (s.advancePc).ended = s.ended := rfl

@[simp] theorem State.writeCell_cfg (s : State) (i : Nat) (v : Word) : (s.writeCell i v).cfg = s.cfg := rfl
@[simp] theorem State.writeCell_regs (s : State) (i : Nat) (v : Word) : (s.writeCell i v).machine.regs = s.machine.regs := rfl
@[simp] theorem State.writeCell_mem (s : State) (i : Nat) (v : Word) : (s.writeCell i v).machine.mem = s.machine.mem.writeCell i v := rfl
@[simp] theorem State.writeCell_pc (s : State) (i : Nat) (v : Word) : (s.writeCell i v).machine.pc = s.machine.pc := rfl
@[simp] theorem State.writeCell_halted (s : State) (i : Nat) (v : Word) : (s.writeCell i v).machine.halted = s.machine.halted := rfl
@[simp] theorem State.writeCell_input (s : State) (i : Nat) (v : Word) : (s.writeCell i v).input = s.input := rfl
@[simp] theorem State.writeCell_out (s : State) (i : Nat) (v : Word) : (s.writeCell i v).out = s.out := rfl
@[simp] theorem State.writeCell_ended (s : State) (i : Nat) (v : Word) : (s.writeCell i v).ended = s.ended := rfl

@[simp] theorem State.setHalted_cfg (s : State) : (s.setHalted).cfg = s.cfg := rfl
@[simp] theorem State.setHalted_regs (s : State) : (s.setHalted).machine.regs = s.machine.regs := rfl
@[simp] theorem State.setHalted_mem (s : State) : (s.setHalted).machine.mem = s.machine.mem := rfl
@[simp] theorem State.setHalted_pc (s : State) : (s.setHalted).machine.pc = s.machine.pc := rfl
@[simp] theorem State.setHalted_halted (s : State) : (s.setHalted).machine.halted = true := rfl
@[simp] theorem State.setHalted_input (s : State) : (s.setHalted).input = s.input := rfl
@[simp] theorem State.setHalted_out (s : State) : (s.setHalted).out = s.out := rfl
@[simp] theorem State.setHalted_ended (s : State) : (s.setHalted).ended = s.ended := rfl

@[simp] theorem State.setInput_cfg (s : State) (inp : Input) : (s.setInput inp).cfg = s.cfg := rfl
@[simp] theorem State.setInput_regs (s : State) (inp : Input) : (s.setInput inp).machine.regs = s.machine.regs := rfl
@[simp] theorem State.setInput_mem (s : State) (inp : Input) : (s.setInput inp).machine.mem = s.machine.mem := rfl
@[simp] theorem State.setInput_pc (s : State) (inp : Input) : (s.setInput inp).machine.pc = s.machine.pc := rfl
@[simp] theorem State.setInput_halted (s : State) (inp : Input) : (s.setInput inp).machine.halted = s.machine.halted := rfl
@[simp] theorem State.setInput_input (s : State) (inp : Input) : (s.setInput inp).input = inp := rfl
@[simp] theorem State.setInput_out (s : State) (inp : Input) : (s.setInput inp).out = s.out := rfl
@[simp] theorem State.setInput_ended (s : State) (inp : Input) : (s.setInput inp).ended = s.ended := rfl

@[simp] theorem State.emit_cfg (s : State) (es : List Event) : (s.emit es).cfg = s.cfg := rfl
@[simp] theorem State.emit_regs (s : State) (es : List Event) : (s.emit es).machine.regs = s.machine.regs := rfl
@[simp] theorem State.emit_mem (s : State) (es : List Event) : (s.emit es).machine.mem = s.machine.mem := rfl
@[simp] theorem State.emit_pc (s : State) (es : List Event) : (s.emit es).machine.pc = s.machine.pc := rfl
@[simp] theorem State.emit_halted (s : State) (es : List Event) : (s.emit es).machine.halted = s.machine.halted := rfl
@[simp] theorem State.emit_input (s : State) (es : List Event) : (s.emit es).input = s.input := rfl
@[simp] theorem State.emit_out (s : State) (es : List Event) : (s.emit es).out = s.out ++ es := rfl
@[simp] theorem State.emit_ended (s : State) (es : List Event) : (s.emit es).ended = s.ended := rfl

@[simp] theorem State.endSession_cfg (s : State) (e : SessionEnd) : (s.endSession e).cfg = s.cfg := rfl
@[simp] theorem State.endSession_regs (s : State) (e : SessionEnd) : (s.endSession e).machine.regs = s.machine.regs := rfl
@[simp] theorem State.endSession_mem (s : State) (e : SessionEnd) : (s.endSession e).machine.mem = s.machine.mem := rfl
@[simp] theorem State.endSession_pc (s : State) (e : SessionEnd) : (s.endSession e).machine.pc = s.machine.pc := rfl
@[simp] theorem State.endSession_halted (s : State) (e : SessionEnd) : (s.endSession e).machine.halted = s.machine.halted := rfl
@[simp] theorem State.endSession_input (s : State) (e : SessionEnd) : (s.endSession e).input = s.input := rfl
@[simp] theorem State.endSession_out (s : State) (e : SessionEnd) : (s.endSession e).out = s.out := rfl
@[simp] theorem State.endSession_ended (s : State) (e : SessionEnd) : (s.endSession e).ended = some e := rfl

/-! `writeReg` is a no-op on register 0, so its lemmas are by cases. -/

@[simp] theorem State.writeReg_cfg (s : State) (r : Reg) (v : Word) : (s.writeReg r v).cfg = s.cfg := by
  unfold State.writeReg; split <;> rfl
@[simp] theorem State.writeReg_mem (s : State) (r : Reg) (v : Word) : (s.writeReg r v).machine.mem = s.machine.mem := by
  unfold State.writeReg; split <;> rfl
@[simp] theorem State.writeReg_pc (s : State) (r : Reg) (v : Word) : (s.writeReg r v).machine.pc = s.machine.pc := by
  unfold State.writeReg; split <;> rfl
@[simp] theorem State.writeReg_halted (s : State) (r : Reg) (v : Word) : (s.writeReg r v).machine.halted = s.machine.halted := by
  unfold State.writeReg; split <;> rfl
@[simp] theorem State.writeReg_input (s : State) (r : Reg) (v : Word) : (s.writeReg r v).input = s.input := by
  unfold State.writeReg; split <;> rfl
@[simp] theorem State.writeReg_out (s : State) (r : Reg) (v : Word) : (s.writeReg r v).out = s.out := by
  unfold State.writeReg; split <;> rfl
@[simp] theorem State.writeReg_ended (s : State) (r : Reg) (v : Word) : (s.writeReg r v).ended = s.ended := by
  unfold State.writeReg; split <;> rfl

/-! What a register, a cell and a byte read as after each update -/

@[simp] theorem State.setPc_reg (s : State) (p : Word) (r : Reg) : (s.setPc p).reg r = s.reg r := rfl
@[simp] theorem State.setPc_readCell (s : State) (p : Word) (i : Nat) : (s.setPc p).readCell i = s.readCell i := rfl
@[simp] theorem State.setPc_memByte (s : State) (p : Word) (a : Nat) : (s.setPc p).memByte a = s.memByte a := rfl
@[simp] theorem State.advancePc_reg (s : State) (r : Reg) : (s.advancePc).reg r = s.reg r := rfl
@[simp] theorem State.advancePc_readCell (s : State) (i : Nat) : (s.advancePc).readCell i = s.readCell i := rfl
@[simp] theorem State.advancePc_memByte (s : State) (a : Nat) : (s.advancePc).memByte a = s.memByte a := rfl
@[simp] theorem State.writeCell_reg (s : State) (i : Nat) (v : Word) (r : Reg) : (s.writeCell i v).reg r = s.reg r := rfl
@[simp] theorem State.setHalted_reg (s : State) (r : Reg) : (s.setHalted).reg r = s.reg r := rfl
@[simp] theorem State.setHalted_readCell (s : State) (i : Nat) : (s.setHalted).readCell i = s.readCell i := rfl
@[simp] theorem State.setHalted_memByte (s : State) (a : Nat) : (s.setHalted).memByte a = s.memByte a := rfl
@[simp] theorem State.setInput_reg (s : State) (inp : Input) (r : Reg) : (s.setInput inp).reg r = s.reg r := rfl
@[simp] theorem State.setInput_readCell (s : State) (inp : Input) (i : Nat) : (s.setInput inp).readCell i = s.readCell i := rfl
@[simp] theorem State.setInput_memByte (s : State) (inp : Input) (a : Nat) : (s.setInput inp).memByte a = s.memByte a := rfl
@[simp] theorem State.emit_reg (s : State) (es : List Event) (r : Reg) : (s.emit es).reg r = s.reg r := rfl
@[simp] theorem State.emit_readCell (s : State) (es : List Event) (i : Nat) : (s.emit es).readCell i = s.readCell i := rfl
@[simp] theorem State.emit_memByte (s : State) (es : List Event) (a : Nat) : (s.emit es).memByte a = s.memByte a := rfl
@[simp] theorem State.endSession_reg (s : State) (e : SessionEnd) (r : Reg) : (s.endSession e).reg r = s.reg r := rfl
@[simp] theorem State.endSession_readCell (s : State) (e : SessionEnd) (i : Nat) : (s.endSession e).readCell i = s.readCell i := rfl
@[simp] theorem State.endSession_memByte (s : State) (e : SessionEnd) (a : Nat) : (s.endSession e).memByte a = s.memByte a := rfl

@[simp] theorem State.writeReg_readCell (s : State) (r : Reg) (v : Word) (i : Nat) :
    (s.writeReg r v).readCell i = s.readCell i := by
  simp [State.readCell]

@[simp] theorem State.writeReg_memByte (s : State) (r : Reg) (v : Word) (a : Nat) :
    (s.writeReg r v).memByte a = s.memByte a := by
  simp [State.memByte]

@[simp] theorem State.reg_zero (s : State) : s.reg 0 = 0 := rfl

@[simp] theorem State.writeReg_zero (s : State) (v : Word) : s.writeReg 0 v = s := rfl

theorem State.writeReg_reg_self (s : State) (r : Reg) (v : Word) :
    (s.writeReg r v).reg r = if r = 0 then 0 else v := by
  by_cases h : r = 0 <;> simp [State.writeReg, State.reg, h]

theorem State.writeReg_reg_of_ne (s : State) {r q : Reg} (v : Word) (h : q ≠ r) :
    (s.writeReg r v).reg q = s.reg q := by
  have hv : r.val ≠ q.val := fun e => h (Fin.ext e.symm)
  by_cases hr : r = 0 <;> simp [State.writeReg, State.reg, hr, hv]

/-- The cell that holds register 0 is never written. -/
theorem State.writeReg_zeroCell (s : State) (r : Reg) (v : Word) :
    (s.writeReg r v).machine.regs[0] = s.machine.regs[0] := by
  by_cases hr : r = 0
  · simp [State.writeReg, hr]
  · have hv : r.val ≠ 0 := fun e => hr (Fin.ext e)
    simp [State.writeReg, hr, hv]

end Sys2Proof.Machine
end

