-- ==== Sys2Proof/Laws/Exec.lean ====
section
/-! SUPPORT. What each shared operation and each handler can do, said once: later proofs cite these and do not unfold
the meanings. -/

namespace Sys2Proof.Machine

/-- Reporting an error adds one Err event and changes nothing else. -/
theorem raise_reports (e : Error) (s : State) : ∃ t, raise e s = .next t ∧ Reports s t e := ⟨_, rfl, rfl⟩

/-- The checks of lw and sw pass exactly when both alignments hold and the cell exists; then the effective address is
four times the index (41_loadstore.md R131). -/
theorem checkLs_ok_iff (rs : Reg) (imm : Imm) (s : State) (idx : Nat) :
    checkLs rs imm s = .ok idx ↔
      imm.toNat % 4 = 0 ∧ effectiveAddress rs imm s = 4 * (idx : Int) ∧ idx < s.cfg.memWords := by
  unfold checkLs
  simp only
  split_ifs with h1 h2 h3
  · simp [h1]
  · simp only [false_iff, not_and]; omega
  · simp only [false_iff, not_and]; omega
  · simp only [Except.ok.injEq]; omega

/-- How the checks fail, in their order. -/
theorem checkLs_error (rs : Reg) (imm : Imm) (s : State) (e : Error) (h : checkLs rs imm s = .error e) :
    (imm.toNat % 4 ≠ 0 ∧ e = .alignment (.imm imm)) ∨
    (imm.toNat % 4 = 0 ∧ effectiveAddress rs imm s % 4 ≠ 0 ∧ e = .alignment (.ea (effectiveAddress rs imm s))) ∨
    (imm.toNat % 4 = 0 ∧ effectiveAddress rs imm s % 4 = 0 ∧
      (effectiveAddress rs imm s / 4 < 0 ∨ effectiveAddress rs imm s / 4 ≥ (s.cfg.memWords : Int)) ∧
      e = .outOfBounds (effectiveAddress rs imm s)) := by
  unfold checkLs at h
  simp only at h
  split_ifs at h with h1 h2 h3
  · exact .inl ⟨h1, by simpa using h.symm⟩
  · exact .inr (.inl ⟨by omega, h2, by simpa using h.symm⟩)
  · exact .inr (.inr ⟨by omega, by omega, h3, by simpa using h.symm⟩)

/-- Writing a register and advancing the pc is the whole effect of a register instruction. -/
theorem writeReg_advancePc (s : State) (rd : Reg) (v : Word) : WritesRegister s (s.writeReg rd v).advancePc rd v :=
  { dest := by simp [State.writeReg_reg_self]
    others := fun r hr => by simp [State.writeReg_reg_of_ne _ _ hr]
    memory := fun a => by simp
    pc := by simp
    out := by simp
    session := by simp [SameSession] }

theorem setPc_setsPcOnly (s : State) (p : Word) : SetsPcOnly s (s.setPc p) p :=
  { pc := rfl, regs := fun _ => rfl, memory := fun _ => rfl, out := rfl, session := ⟨rfl, rfl, rfl, rfl⟩ }

theorem emit_advancePc (s : State) (e : Event) : EmitsOnly s (s.emit [e]).advancePc e :=
  { out := rfl, pc := rfl, regs := fun _ => rfl, memory := fun _ => rfl, session := ⟨rfl, rfl, rfl, rfl⟩ }

/-! The service that `x[2]` selects (43_syscall.md R171) -/

theorem execSyscall_printInt {s : State} (h : s32 (s.reg 2) = 1) : execSyscall s = servicePrintInt (s.reg 4) s := by
  simp only [execSyscall, if_pos h]

theorem execSyscall_printString {s : State} (h : s32 (s.reg 2) = 4) :
    execSyscall s = servicePrintString (s.reg 4) s := by
  simp only [execSyscall, if_pos h, if_neg (show ¬ s32 (s.reg 2) = 1 by omega)]

theorem execSyscall_readInt {s : State} (h : s32 (s.reg 2) = 5) : execSyscall s = serviceReadInt s := by
  simp only [execSyscall, if_pos h, if_neg (show ¬ s32 (s.reg 2) = 1 by omega),
    if_neg (show ¬ s32 (s.reg 2) = 4 by omega)]

theorem execSyscall_exit {s : State} (h : s32 (s.reg 2) = 10) : execSyscall s = serviceExit s := by
  simp only [execSyscall, if_pos h, if_neg (show ¬ s32 (s.reg 2) = 1 by omega),
    if_neg (show ¬ s32 (s.reg 2) = 4 by omega), if_neg (show ¬ s32 (s.reg 2) = 5 by omega)]

theorem execSyscall_unsupported {s : State} (h1 : s32 (s.reg 2) ≠ 1) (h4 : s32 (s.reg 2) ≠ 4)
    (h5 : s32 (s.reg 2) ≠ 5) (h10 : s32 (s.reg 2) ≠ 10) :
    execSyscall s = raise (.unsupportedSyscall (s32 (s.reg 2))) s := by
  simp only [execSyscall, if_neg h1, if_neg h4, if_neg h5, if_neg h10]

/-! The two arms of beq -/

theorem execBeq_taken {rs rt : Reg} (imm : Imm) {s : State} (h : s.reg rs = s.reg rt) :
    execBeq rs rt imm s = .next (s.setPc (branchTarget s.machine.pc imm)) := if_pos h

theorem execBeq_notTaken {rs rt : Reg} (imm : Imm) {s : State} (h : s.reg rs ≠ s.reg rt) :
    execBeq rs rt imm s = .next s.advancePc := if_neg h

/-- A register write and a change of the pc do not see each other. -/
theorem State.setPc_writeReg (s : State) (p : Word) (r : Reg) (v : Word) :
    (s.setPc p).writeReg r v = (s.writeReg r v).setPc p := by
  unfold State.writeReg; split <;> rfl

/-- What a handler can do, as an update of the state. -/
inductive Effect (i : Instr) (s : State) : State → Prop where
  /-- An execution error that reads no input line. -/
  | reported (e : Error) : Effect i s (s.emit [.err e])
  /-- Service 5, a malformed line. -/
  | malformed (text : List Char) (rest : Input) (h : requestInt s.input = .malformed text rest)
      (hc : s32 (s.reg 2) = 5) : Effect i s ((s.setInput rest).emit [.err (.inputFormat (.notInteger text))])
  /-- Service 5, no line left. -/
  | ended (e : SessionEnd) : Effect i s (s.endSession e)
  /-- A register result. -/
  | register (rd : Reg) (v : Word) (h : writesReg i s rd) (hp : nextPc i s = s.machine.pc + 4) :
      Effect i s (s.writeReg rd v).advancePc
  /-- A store. -/
  | store (rt rs : Reg) (imm : Imm) (idx : Nat) (hi : i = .sw rt rs imm) (h : checkLs rs imm s = .ok idx) :
      Effect i s (s.writeCell idx (s.reg rt)).advancePc
  /-- A branch, taken or not, or a jump. -/
  | control (hi : (∃ rs rt imm, i = .beq rs rt imm) ∨ ∃ a, i = .j a) : Effect i s (s.setPc (nextPc i s))
  /-- Services 1 and 4. -/
  | output (e : Event) (he : e.isErr = false) (hp : nextPc i s = s.machine.pc + 4) :
      Effect i s (s.emit [e]).advancePc
  /-- Service 5, an integer. -/
  | readInt (v : Int) (rest : Input) (h : requestInt s.input = .int v rest) (hw : writesReg i s 2)
      (hp : nextPc i s = s.machine.pc + 4) : Effect i s ((s.setInput rest).writeReg 2 (wrap32 v)).advancePc
  /-- Service 10. -/
  | exit (rs rt rd : Reg) (shamt : Shamt) (hi : i = .syscall rs rt rd shamt) (hc : s32 (s.reg 2) = 10)
      (hp : nextPc i s = s.machine.pc + 4) : Effect i s s.setHalted.advancePc

/-- The inversion of `exec`: a next state is one of the effects. -/
theorem exec_effect {i : Instr} {s t : State} (h : exec i s = .next t) : Effect i s t := by
  have nx : ∀ {a b : State}, (Host.Outcome.next a : Result) = .next b → a = b := fun h => by cases h; rfl
  cases i with
  | add rd rs rt sh => cases nx h; exact .register rd _ rfl rfl
  | sub rd rs rt sh => cases nx h; exact .register rd _ rfl rfl
  | and rd rs rt sh => cases nx h; exact .register rd _ rfl rfl
  | or rd rs rt sh => cases nx h; exact .register rd _ rfl rfl
  | xor rd rs rt sh => cases nx h; exact .register rd _ rfl rfl
  | sll rd rt sh rs => cases nx h; exact .register rd _ rfl rfl
  | srl rd rt sh rs => cases nx h; exact .register rd _ rfl rfl
  | lw rt rs imm =>
    simp only [exec, execLw] at h
    cases hc : checkLs rs imm s with
    | error e => rw [hc] at h; cases nx h; exact .reported e
    | ok idx => rw [hc] at h; cases nx h; exact .register rt _ rfl rfl
  | sw rt rs imm =>
    simp only [exec, execSw] at h
    cases hc : checkLs rs imm s with
    | error e => rw [hc] at h; cases nx h; exact .reported e
    | ok idx => rw [hc] at h; cases nx h; exact .store rt rs imm idx rfl hc
  | beq rs rt imm =>
    have e : t = s.setPc (nextPc (.beq rs rt imm) s) := by
      simp only [exec, execBeq] at h
      by_cases hb : s.reg rs = s.reg rt
      · rw [if_pos hb] at h; cases nx h; simp [nextPc, hb]
      · rw [if_neg hb] at h; cases nx h; simp [nextPc, hb, State.advancePc]
    rw [e]; exact .control (.inl ⟨rs, rt, imm, rfl⟩)
  | j a => cases nx h; exact .control (.inr ⟨a, rfl⟩)
  | syscall rs rt rd sh =>
    simp only [exec, execSyscall] at h
    split_ifs at h with h1 h4 h5 h10
    · cases nx h; exact .output _ rfl rfl
    · simp only [servicePrintString] at h
      cases hs : stringAt s (s32 (s.reg 4)) with
      | none => rw [hs] at h; cases nx h; exact .reported _
      | some bs => rw [hs] at h; cases nx h; exact .output _ rfl rfl
    · simp only [serviceReadInt] at h
      cases hr : requestInt s.input with
      | int v rest => rw [hr] at h; cases nx h; exact .readInt v rest hr ⟨rfl, h5⟩ rfl
      | malformed text rest => rw [hr] at h; cases nx h; exact .malformed text rest hr h5
      | endOfInput => rw [hr] at h; cases nx h; exact .ended _
      | failure => rw [hr] at h; cases nx h; exact .ended _
    · cases nx h; exact .exit rs rt rd sh rfl h10 rfl
    · cases nx h; exact .reported _

end Sys2Proof.Machine
end

