-- ==== Sys2Proof/Laws/PerInstr.lean ====
section
/-! SUPPORT. Laws of the instructions as syntax, one lemma per constructor. Family TableRow: an instruction's word
carries the fixed bits of its row of spec/opcode_table.json. -/

namespace Sys2Proof.Laws.TableRow

/-- The opcode of a row, and the funct of an R-format one, as "fixed" of spec/opcode_table.json gives them. -/
def row : Instr → Nat × Option Nat
  | .add _ _ _ _     => (0, some 32)
  | .sub _ _ _ _     => (0, some 34)
  | .and _ _ _ _     => (0, some 36)
  | .or _ _ _ _      => (0, some 37)
  | .xor _ _ _ _     => (0, some 38)
  | .sll _ _ _ _     => (0, some 0)
  | .srl _ _ _ _     => (0, some 2)
  | .syscall _ _ _ _ => (0, some 12)
  | .lw _ _ _        => (35, none)
  | .sw _ _ _        => (43, none)
  | .beq _ _ _       => (4, none)
  | .j _             => (2, none)

/-- Bits 31 to 26 of the word are the row's opcode, bits 5 to 0 its funct. -/
def Statement (i : Instr) : Prop :=
  (encode i).toNat / 2 ^ 26 = (row i).1 ∧ ∀ f, (row i).2 = some f → (encode i).toNat % 2 ^ 6 = f

theorem packR_row (funct : Nat) (rs rt rd : Reg) (shamt : Shamt) (hf : funct < 64) :
    (packR 0 rs rt rd shamt funct).toNat / 2 ^ 26 = 0 ∧ (packR 0 rs rt rd shamt funct).toNat % 2 ^ 6 = funct := by
  have h1 := rs.isLt; have h2 := rt.isLt; have h3 := rd.isLt; have h4 := shamt.isLt
  rw [packR_toNat _ _ _ _ _ _ (by omega) hf]; omega

theorem packI_row (opcode : Nat) (rs rt : Reg) (imm : Imm) (ho : opcode < 64) :
    (packI opcode rs rt imm).toNat / 2 ^ 26 = opcode := by
  have h1 := rs.isLt; have h2 := rt.isLt; have h3 := imm.isLt
  rw [packI_toNat _ _ _ _ ho]; omega

theorem packR_statement {i : Instr} {funct : Nat} {rs rt rd : Reg} {shamt : Shamt}
    (he : encode i = packR 0 rs rt rd shamt funct) (hr : row i = (0, some funct)) (hf : funct < 64) : Statement i := by
  obtain ⟨h1, h2⟩ := packR_row funct rs rt rd shamt hf
  refine ⟨by rw [he, hr, h1], fun f h => ?_⟩
  rw [hr] at h; cases h; rw [he, h2]

theorem packI_statement {i : Instr} {opcode : Nat} {rs rt : Reg} {imm : Imm}
    (he : encode i = packI opcode rs rt imm) (hr : row i = (opcode, none)) (ho : opcode < 64) : Statement i := by
  refine ⟨by rw [he, hr, packI_row _ _ _ _ ho], fun f h => ?_⟩
  rw [hr] at h; cases h

theorem add (rd rs rt : Reg) (sh : Shamt) : Statement (.add rd rs rt sh) := packR_statement rfl rfl (by decide)
theorem sub (rd rs rt : Reg) (sh : Shamt) : Statement (.sub rd rs rt sh) := packR_statement rfl rfl (by decide)
theorem and (rd rs rt : Reg) (sh : Shamt) : Statement (.and rd rs rt sh) := packR_statement rfl rfl (by decide)
theorem or (rd rs rt : Reg) (sh : Shamt) : Statement (.or rd rs rt sh) := packR_statement rfl rfl (by decide)
theorem xor (rd rs rt : Reg) (sh : Shamt) : Statement (.xor rd rs rt sh) := packR_statement rfl rfl (by decide)
theorem sll (rd rt : Reg) (sh : Shamt) (rs : Reg) : Statement (.sll rd rt sh rs) := packR_statement rfl rfl (by decide)
theorem srl (rd rt : Reg) (sh : Shamt) (rs : Reg) : Statement (.srl rd rt sh rs) := packR_statement rfl rfl (by decide)
theorem syscall (rs rt rd : Reg) (sh : Shamt) : Statement (.syscall rs rt rd sh) :=
  packR_statement rfl rfl (by decide)
theorem lw (rt rs : Reg) (imm : Imm) : Statement (.lw rt rs imm) := packI_statement rfl rfl (by decide)
theorem sw (rt rs : Reg) (imm : Imm) : Statement (.sw rt rs imm) := packI_statement rfl rfl (by decide)
theorem beq (rs rt : Reg) (imm : Imm) : Statement (.beq rs rt imm) := packI_statement rfl rfl (by decide)

theorem j (a : Addr26) : Statement (.j a) := by
  have h1 := a.isLt
  refine ⟨?_, fun f h => by simp [row] at h⟩
  show (packJ 2 a).toNat / 2 ^ 26 = 2
  rw [packJ_toNat _ _ (by decide)]; omega

end Sys2Proof.Laws.TableRow
end

