-- ==== Sys2Proof/Laws/Step.lean ====
section
/-! SUPPORT. What one step of a session can do, said once. -/

namespace Sys2Proof.Machine

/-- A session whose block is Running and whose stream has not ended it takes a step. -/
theorem stopReason_none_iff (s : State) : s.stopReason = none ↔ s.machine.halted = false ∧ s.ended = none := by
  unfold State.stopReason
  cases s.machine.halted <;> cases s.ended <;> simp

/-- What a step that answers a next state did: it ended the session, reported a line, or ran a word. -/
inductive Turn (s : State) : State → Prop where
  | streamEnd (e : SessionEnd)
      (h : (readLine s.input = .endOfInput ∧ e = .endOfInput) ∨ (readLine s.input = .failure ∧ e = .failure)) :
      Turn s (s.endSession e)
  | badLine (text : List Char) (rest : Input) (info : InputFormatInfo) (h : readLine s.input = .line text rest)
      (hp : parseHex text = .error info) : Turn s ((s.setInput rest).emit [.err (.inputFormat info)])
  | rejected (text : List Char) (rest : Input) (w : Word) (e : Error) (h : readLine s.input = .line text rest)
      (hp : parseHex text = .ok w) (hd : (decode s.cfg.aluExt w).result = .reject e) :
      Turn s (((s.setInput rest).emit (decode s.cfg.aluExt w).events).emit [.err e])
  | ran (text : List Char) (rest : Input) (w : Word) (i : Instr) (t : State) (h : readLine s.input = .line text rest)
      (hp : parseHex text = .ok w) (hd : (decode s.cfg.aluExt w).result = .instr i)
      (hx : exec i ((s.setInput rest).emit (decode s.cfg.aluExt w).events) = .next t) : Turn s t

/-- The inversion of `step`. -/
theorem step_turn {s t : State} (h : step s = .next t) : s.stopReason = none ∧ Turn s t := by
  have nx : ∀ {a b : State}, (Host.Outcome.next a : Result) = .next b → a = b := fun h => by cases h; rfl
  cases hr : s.stopReason with
  | some reason => simp [step, fetch, hr] at h
  | none =>
    refine ⟨rfl, ?_⟩
    cases hl : readLine s.input with
    | endOfInput => simp only [step, fetch, hr, hl] at h; cases nx h; exact .streamEnd _ (.inl ⟨hl, rfl⟩)
    | failure => simp only [step, fetch, hr, hl] at h; cases nx h; exact .streamEnd _ (.inr ⟨hl, rfl⟩)
    | line text rest =>
      cases hp : parseHex text with
      | error info =>
        simp only [step, fetch, hr, hl, hp] at h
        cases nx h; exact .badLine text rest info hl hp
      | ok w =>
        simp only [step, fetch, hr, hl, hp, issue, State.setInput_cfg] at h
        cases hd : (decode s.cfg.aluExt w).result with
        | reject e => rw [hd] at h; cases nx h; exact .rejected text rest w e hl hp hd
        | instr i => rw [hd] at h; exact .ran text rest w i t hl hp hd h

/-- The decoder emits diagnostics only, never an error (30_encoding.md R88). -/
theorem decode_events_noErr (aluExt : Bool) (w : Word) : ∀ e ∈ (decode aluExt w).events, e.isErr = false := by
  unfold decode
  intro e he
  split at he
  · simp at he
  · split at he
    · simp at he
    · rename_i f _
      cases f <;> simp [diagnostics] at he <;> rcases he with rfl | rfl <;> rfl

end Sys2Proof.Machine
end

