-- ==== Sys2Proof/Tests/Slice0.lean ====
section
/-! SUPPORT. The model's own tests. Expected results are those of spec/95_test_vectors.md (the vector is named) or of the
rule named; "witness" theorems show a state and operands that meet a statement's hypotheses. -/

namespace Sys2Proof.Tests

open Sys2Proof.Machine

/-! ## Helpers -/

/-- The reference session with some registers and cells set. -/
def st (regs : List (Reg × Word)) (mem : List (Nat × Word)) : State :=
  mem.foldl (fun s c => s.writeCell c.1 c.2) (regs.foldl (fun s r => s.writeReg r.1 r.2) State.reset)

/-- A session with other parameters. -/
def withCfg (c : Config) (s : State) : State := { s with cfg := c }

/-- A session with the input text. -/
def withInput (text : String) (tail : StreamTail) (s : State) : State := s.setInput ⟨text.toList, tail⟩

/-- A reading of the next state, if there is one. -/
def see {α : Type} (f : State → α) (r : Result) : Option α :=
  match r with
  | .next t => some (f t)
  | .fault _ => none
  | .refused _ => none

/-- Register, pc and events of a state. -/
def regPcOut (r : Reg) (s : State) : Word × Word × List Event := (s.reg r, s.machine.pc, s.out)

/-! ## WellFormed: the check refuses an ill-formed term -/

/-- V-A18: sub is no instruction of a block without ALU_EXT. -/
theorem smoke_wf_refuses_sub : (Instr.sub 3 1 2 0).wf false = false := by decide

theorem smoke_wf_refuses_nop : (Instr.sll 0 0 0 0).wf false = false := by decide

theorem smoke_wf_accepts : (Instr.sub 3 1 2 0).wf true = true ∧ (Instr.add 3 1 2 0).wf false = true := by decide

/-- R78's own example "rs out of range: 37". -/
theorem smoke_range_check_refuses : checkReg .rs 37 = .error (.fieldRange .rs 37) := by decide

/-! ## Decoder: words written out from the encodings, one per instruction -/

/-- V-D1. -/
theorem test_decode_add : decode true 0b000000_00001_00010_00101_00000_100000#32 =
    ⟨[.diag .r, .fields 1 2 5 0 0x20], .instr (.add 5 1 2 0)⟩ := by decide

/-- V-D2: shamt is ignored by the handler and reported by the decoder. -/
theorem test_decode_add_shamt : decode true 0x002229E0#32 =
    ⟨[.diag .r, .fields 1 2 5 7 0x20], .instr (.add 5 1 2 7)⟩ := by decide

theorem test_decode_sub : (decode true 0b000000_00001_00010_00011_00000_100010#32).result = .instr (.sub 3 1 2 0) := by
  decide

theorem test_decode_and : (decode true 0b000000_00001_00010_00011_00000_100100#32).result = .instr (.and 3 1 2 0) := by
  decide

theorem test_decode_or : (decode true 0b000000_00001_00010_00011_00000_100101#32).result = .instr (.or 3 1 2 0) := by
  decide

theorem test_decode_xor : (decode true 0b000000_00001_00010_00011_00000_100110#32).result = .instr (.xor 3 1 2 0) := by
  decide

/-- V-A17. -/
theorem test_decode_sll : (decode true 0b000000_11111_00010_00011_00100_000000#32).result = .instr (.sll 3 2 4 31) := by
  decide

/-- V-A12. -/
theorem test_decode_srl : (decode true 0b000000_00000_00010_00011_00100_000010#32).result = .instr (.srl 3 2 4 0) := by
  decide

/-- V-D4. -/
theorem test_decode_syscall : (decode true 0b000000_11111_11111_11111_11111_001100#32).result =
    .instr (.syscall 31 31 31 31) := by decide

/-- V-D7, V-D8. -/
theorem test_decode_lw : decode true 0b100011_01001_01000_0000000000000100#32 = ⟨[.diag .i], .instr (.lw 8 9 4)⟩ := by
  decide

theorem test_decode_sw : decode true 0b101011_01001_01000_0000000000000100#32 = ⟨[.diag .i], .instr (.sw 8 9 4)⟩ := by
  decide

/-- V-D9. -/
theorem test_decode_beq : decode true 0b000100_00001_00010_0000000000000011#32 = ⟨[.diag .i], .instr (.beq 1 2 3)⟩ := by
  decide

/-- V-D11. -/
theorem test_decode_j : decode true 0b000010_11111111111111111111111111#32 = ⟨[.diag .j], .instr (.j 0x3FFFFFF)⟩ := by
  decide

/-- V-D5: with ALU_EXT = false the all-zero word is an UnsupportedFunct word. -/
theorem test_decode_nop_without_ext : decode false 0#32 =
    ⟨[.diag .r, .fields 0 0 0 0 0], .reject (.unsupportedFunct 0 0#32)⟩ := by decide

/-- V-D12, V-E1: the opcode decides before the funct. -/
theorem test_decode_illegal_opcode : decode true 0xFC00000C#32 = ⟨[], .reject (.unsupportedOpcode 0x3F 0xFC00000C#32)⟩ := by
  decide

/-- V-D19: the encoder's word for V-D1. -/
theorem test_encode_add : encode (.add 5 1 2 0) = 0x00222820#32 := by decide

/-- Lines 7 of P2, 8 and 10 of P3, and R84's no-op. -/
theorem test_assemble : (assemble Config.reference (.sw 4 (-4) 4)).map encode = some 0xAC84FFFC#32 ∧
    (assemble Config.reference (.beq 0 0 2)).map encode = some 0x10000002#32 ∧
    (assemble Config.reference (.j 0x00400000)).map encode = some 0x08100000#32 ∧
    (assemble Config.reference .nop).map encode = some 0#32 ∧
    assemble { Config.reference with aluExt := false } .nop = none := by decide

/-- R33. -/
theorem test_reg_names : regByName "$v0" = some 2 ∧ regByName "$t9" = some 25 ∧ regByName "$31" = some 31 := by decide

theorem test_decode_table_word : decodeTableWord 32 0xAD280004 = some (.sw 8 9 4) := by decide

/-! ## Instructions: one step each -/

/-- V-A3: the sum wraps, no error. -/
theorem test_add_wraps : see (regPcOut 3) (exec (.add 3 1 2 0) (st [(1, 0x7FFFFFFF), (2, 1)] [])) =
    some (0x80000000, 4, []) := by decide

/-- V-A2: register 0 stays 0 and the pc advances. -/
theorem test_add_to_zero : see (regPcOut 0) (exec (.add 0 1 2 0) (st [(1, 3), (2, 4)] [])) = some (0, 4, []) := by
  decide

/-- V-A6. -/
theorem test_sub_wraps : see (regPcOut 3) (exec (.sub 3 1 2 0) (st [(1, 0x80000000), (2, 1)] [])) =
    some (0x7FFFFFFF, 4, []) := by decide

/-- V-A7. -/
theorem test_and : see (regPcOut 3) (exec (.and 3 1 2 0) (st [(1, 0x0000FF0F), (2, 0x000F0FFF)] [])) =
    some (0x00000F0F, 4, []) := by decide

/-- V-A8. -/
theorem test_or : see (regPcOut 3) (exec (.or 3 1 2 0) (st [(1, 0x0000FF0F), (2, 0x000F0FFF)] [])) =
    some (0x000FFFFF, 4, []) := by decide

/-- V-A9. -/
theorem test_xor : see (regPcOut 3) (exec (.xor 3 1 2 0) (st [(1, 0x0000FF0F), (2, 0x000F0FFF)] [])) =
    some (0x000FF0F0, 4, []) := by decide

/-- V-A11, V-A17. -/
theorem test_sll : see (regPcOut 3) (exec (.sll 3 2 4 31) (st [(2, 0x80000001)] [])) = some (0x00000010, 4, []) := by
  decide

/-- V-A16: no sign fill. -/
theorem test_srl : see (regPcOut 3) (exec (.srl 3 2 1 0) (st [(2, 0xFFFFFFFF)] [])) = some (0x7FFFFFFF, 4, []) := by
  decide

/-- V-L12: the address comes from the old base. -/
theorem test_lw_into_base : see (regPcOut 1) (exec (.lw 1 1 0) (st [(1, 8)] [(2, 0x55)])) = some (0x55, 4, []) := by
  decide

/-- V-L9 under LS_OFFSET_EXT = Zero. -/
theorem test_lw_zero_extended : see (regPcOut 3)
    (exec (.lw 3 1 0xFFFC) (withCfg { Config.reference with lsOffsetExt := .zero } (st [(1, 8)] [(1, 0x99)]))) =
    some (0, 0, [.err (.outOfBounds 65540)]) := by decide

/-- V-L2. -/
theorem test_sw : see (fun t => (t.readCell 3, t.readCell 2, t.machine.pc))
    (exec (.sw 8 9 4) (st [(9, 8), (8, 0x12345678)] [])) = some (0x12345678, 0, 4) := by decide

/-- V-L15: the immediate is checked first. -/
theorem test_sw_misaligned : see (fun t => (t.machine.mem, t.machine.pc, t.out)) (exec (.sw 3 1 1) (st [(1, 10000)] [])) =
    some ([], 0, [.err (.alignment (.imm 1))]) := by decide

/-- V-C4: the target wraps. -/
theorem test_beq_back : see (fun t => t.machine.pc) (exec (.beq 0 0 0x8000) (State.reset.setPc 0x100)) =
    some 0xFFFE0104 := by decide

/-- V-C2. -/
theorem test_beq_not_taken : see (fun t => t.machine.pc) (exec (.beq 1 2 3) ((st [(1, 9), (2, 8)] []).setPc 0x100)) =
    some 0x104 := by decide

/-- V-C10: the current pc's upper four bits. -/
theorem test_j_full : see (fun t => t.machine.pc) (exec (.j 0) (State.reset.setPc 0x1FFFFFFC)) = some 0x10000000 := by
  decide

/-- V-C8 under JUMP_MODE = Simplified. -/
theorem test_j_simplified : see (fun t => t.machine.pc)
    (exec (.j 0x100000) (withCfg { Config.reference with jumpMode := .simplified } (State.reset.setPc 0x90000010))) =
    some 0x00400000 := by decide

/-- V-S5: under Big the lanes of each word are read the other way round. -/
theorem test_print_string_big : see (fun t => (t.out, t.machine.pc)) (exec (.syscall 0 0 0 0)
    (withCfg { Config.reference with strByteOrder := .big } (st [(2, 4)] [(0, 0x6C6C6548), (1, 0x6F)]))) =
    some ([.outStr [0x6C, 0x6C, 0x65, 0x48]], 4) := by decide

/-- V-S15: a sign and blanks. -/
theorem test_read_int : see (fun t => (t.reg 2, t.machine.pc, t.input.chars)) (exec (.syscall 0 0 0 0)
    (withInput " +7 \n0000000C" .endOfInput (st [(2, 5)] []))) = some (7, 4, "0000000C".toList) := by decide

/-! ## Steps and the host's ports -/

/-- V-S17: the step that halts leaves the next line unread, and no further step is taken. -/
theorem test_step_exit : see (fun t => (t.machine.halted, t.machine.pc, t.input.chars, t.out))
    (step (withInput "0000000c\n00222820\n" .endOfInput (st [(2, 10)] []))) =
    some (true, 4, "00222820\n".toList, [.diag .r, .fields 0 0 0 0 0x0C]) := by decide

/-- The word that withFetchWord places is the word the next step runs, as the first instruction after reset. -/
theorem test_step_first_word : see (regPcOut 5) (step (State.reset.withFetchWord 32 0x00222820)) =
    some (0, 4, [.diag .r, .fields 1 2 5 0 0x20]) := by decide

/-- V-H2: the position is reported, MachineState is unchanged and the next line is left. -/
theorem test_step_bad_line : see (fun t => (t.machine, t.input.chars, t.out))
    (step (withInput "ZZZZZZZZ\n00000000" .endOfInput State.reset)) =
    some (MachineState.reset, "00000000".toList, [.err (.inputFormat (.badCharacter "ZZZZZZZZ".toList 'Z' 0))]) := by decide

/-- V-H8, V-H9: the length is checked first; then the first bad character is named. -/
theorem test_parse_hex_errors : parseHex " 00222820".toList = .error (.wrongLength " 00222820".toList 9) ∧
    parseHex "0x222820".toList = .error (.badCharacter "0x222820".toList 'x' 1) := by decide

/-- V-H3. -/
theorem test_parse_hex_case : parseHex "abcdef01".toList = .ok 0xABCDEF01#32 ∧
    parseHex "ABCDEF01".toList = .ok 0xABCDEF01#32 := by decide

/-- V-H7: CR LF is stripped. -/
theorem test_read_line_crlf : readLine ⟨"00222820\r\nx".toList, .endOfInput⟩ =
    .line "00222820".toList ⟨"x".toList, .endOfInput⟩ := by decide

/-- V-S12, V-S13, V-S14. -/
theorem test_parse_int_range : parseInt "-2147483648".toList = some (-2147483648) ∧
    parseInt "2147483648".toList = none ∧ parseInt "abc".toList = none ∧ parseInt "- 1".toList = none ∧
    parseInt [] = none := by decide

/-- V-S2: the text of a printed integer. -/
theorem test_render_int : renderInt (-5) = "-5".toList ∧ renderInt 0 = "0".toList ∧
    renderInt (-2147483648) = "-2147483648".toList := by decide

/-- R201's numbering, first and last. -/
theorem test_error_codes : errorCode (.inputFormat (.notInteger [])) = 1 ∧ errorCode (.unsupportedSyscall 0) = 7 := by
  decide

/-- V-R3, program P1's start: a launch sets the cells and the pc. -/
theorem test_launch : (State.launch Config.reference ⟨Vector.replicate 32 9, [5, 1, 10], 0x100⟩ ⟨[], .endOfInput⟩).readCell 2 = 10 ∧
    (State.launch Config.reference ⟨Vector.replicate 32 9, [5, 1, 10], 0x100⟩ ⟨[], .endOfInput⟩).reg 0 = 0 := by decide

/-! ## Witnesses: the hypotheses of each statement hold together somewhere, each clause at a boundary value -/

/-- WrappedAddressGivesTheSameOutcome: the sum -4, read signed and unsigned. -/
theorem witness_wrappedAddress : State.reset.cfg.wf ∧
    s32 (State.reset.reg 0 + lsOffset State.reset.cfg.lsOffsetExt 0xFFFC) = -4 ∧
    u32 (State.reset.reg 0 + lsOffset State.reset.cfg.lsOffsetExt 0xFFFC) = 2 ^ 32 - 4 := by decide

/-- OperandAssembly: the largest offset on which the extensions agree. -/
theorem witness_operandAssembly : (0x7FFF#16 : Imm).toNat ≤ 0x7FFF := by decide

/-- LoadCompletes, StoreCompletes: the last cell (V-L6). -/
theorem witness_loadStore : (st [(1, 252)] [(63, 0x77)]).machine.mem.wf ∧ (0#16 : Imm).toNat % 4 = 0 ∧
    effectiveAddress 1 0 (st [(1, 252)] [(63, 0x77)]) = 4 * (63 : Nat) ∧ 63 < (st [(1, 252)] [(63, 0x77)]).cfg.memWords := by
  decide

/-- LoadAndStoreErrors, first clause (V-L4). -/
theorem witness_misalignedImm : (2#16 : Imm).toNat % 4 ≠ 0 := by decide

/-- LoadAndStoreErrors, second clause (V-L5). -/
theorem witness_misalignedEa : (0#16 : Imm).toNat % 4 = 0 ∧ effectiveAddress 1 0 (st [(1, 1)] []) % 4 ≠ 0 := by decide

/-- LoadAndStoreErrors, third clause, just past the end (V-L7) and just before the start (V-L8). -/
theorem witness_outOfBounds : (0#16 : Imm).toNat % 4 = 0 ∧ effectiveAddress 1 0 (st [(1, 256)] []) % 4 = 0 ∧
    4 * ((st [(1, 256)] []).cfg.memWords : Int) ≤ effectiveAddress 1 0 (st [(1, 256)] []) ∧
    (0xFFFC#16 : Imm).toNat % 4 = 0 ∧ effectiveAddress 0 0xFFFC State.reset % 4 = 0 ∧
    effectiveAddress 0 0xFFFC State.reset < 0 := by decide

/-- V-L3's start and its state after the store. -/
def stored : State := ((st [(9, 8), (8, 0xCAFEF00D)] []).writeCell 2 0xCAFEF00D).advancePc

/-- StoreThenLoadGivesTheWordBack (V-L3). -/
theorem witness_storeThenLoad : (st [(9, 8), (8, 0xCAFEF00D)] []).machine.mem.wf ∧
    exec (.sw 8 9 0) (st [(9, 8), (8, 0xCAFEF00D)] []) = .next stored ∧
    stored.out = (st [(9, 8), (8, 0xCAFEF00D)] []).out ∧ (0#16 : Imm).toNat % 4 = 0 ∧
    effectiveAddress 9 0 stored = effectiveAddress 9 0 (st [(9, 8), (8, 0xCAFEF00D)] []) :=
  ⟨by decide, rfl, by decide, by decide, by decide⟩

/-- OnlySyscallSeesTheByteOrder, InstructionsWriteOnlyTheirDestinations (not sw), HaltedIsSetByExitOnlyAndIsTerminal
(first two parts). -/
theorem witness_execNext : (∀ rs rt rd shamt, Instr.lw 0 0 0 ≠ .syscall rs rt rd shamt) ∧
    (∀ rt rs imm, Instr.lw 0 0 0 ≠ .sw rt rs imm) ∧
    exec (.lw 0 0 0) State.reset = .next State.reset.advancePc ∧ ¬ writesReg (.lw 0 0 0) State.reset 1 :=
  ⟨by simp, by simp, rfl, by simp [writesReg]⟩

/-- NextPcMux: a handler that fails and one that completes (V-S18, a jump). -/
theorem witness_nextPcMux : State.reset.ended = none ∧
    exec (.syscall 0 0 0 0) State.reset = .next (State.reset.emit [.err (.unsupportedSyscall 0)]) ∧
    Failed State.reset (State.reset.emit [.err (.unsupportedSyscall 0)]) ∧
    exec (.j 0) State.reset = .next (State.reset.setPc 0) ∧ ¬ Failed State.reset (State.reset.setPc 0) :=
  ⟨rfl, rfl, .inl ⟨_, rfl⟩, rfl, by
    rintro (⟨e, h⟩ | h)
    · exact absurd h.symm (List.append_ne_nil_of_right_ne_nil _ (by simp))
    · exact h rfl⟩

/-- PrintIntegerCompletes (V-S1). -/
theorem witness_printInt : s32 ((st [(2, 1), (4, 7)] []).reg 2) = 1 := by decide

/-- V-S4's start. -/
def hello : State := st [(2, 4), (4, 0)] [(0, 0x6C6C6548), (1, 0x6F)]

/-- PrintStringCompletes (V-S4). -/
theorem witness_printString : s32 (hello.reg 2) = 4 ∧ s32 (hello.reg 4) = (0 : Nat) ∧
    (∀ k, k < 5 → hello.memByte (0 + k) ≠ 0) ∧ hello.memByte (0 + 5) = 0 ∧ (0 + 5) / 4 < hello.cfg.memWords := by decide

/-- PrintStringCompletes: an empty string in the last byte of the memory. -/
theorem witness_printString_last : s32 ((st [(2, 4), (4, 255)] []).reg 4) = (255 : Nat) ∧
    (∀ k, k < 0 → (st [(2, 4), (4, 255)] []).memByte (255 + k) ≠ 0) ∧ (st [(2, 4), (4, 255)] []).memByte (255 + 0) = 0 ∧
    (255 + 0) / 4 < (st [(2, 4), (4, 255)] []).cfg.memWords := by decide

/-- PrintStringOutOfBounds, a negative address (V-S9). -/
theorem witness_stringNegative : s32 ((st [(2, 4), (4, 0xFFFFFFFF)] []).reg 2) = 4 ∧
    s32 ((st [(2, 4), (4, 0xFFFFFFFF)] []).reg 4) < 0 := by decide

/-- PrintStringOutOfBounds, no zero byte up to the end (V-S8). -/
theorem witness_stringUnterminated : s32 ((st [(2, 4), (4, 255)] [(63, 0x41000000)]).reg 2) = 4 ∧
    ∀ a : Nat, s32 ((st [(2, 4), (4, 255)] [(63, 0x41000000)]).reg 4) ≤ a →
      a / 4 < (st [(2, 4), (4, 255)] [(63, 0x41000000)]).cfg.memWords →
      (st [(2, 4), (4, 255)] [(63, 0x41000000)]).memByte a ≠ 0 := by
  refine ⟨by decide, fun a h1 h2 => ?_⟩
  have e1 : s32 ((st [(2, 4), (4, 255)] [(63, 0x41000000)]).reg 4) = 255 := by decide
  have e2 : (st [(2, 4), (4, 255)] [(63, 0x41000000)]).cfg.memWords = 64 := by decide
  obtain rfl : a = 255 := by omega
  decide

/-- ReadIntegerCompletes, at the lowest value (V-S12). -/
theorem witness_readInt :
    s32 ((withInput "-2147483648\n" .endOfInput (st [(2, 5)] [])).reg 2) = 5 ∧
    readLine (withInput "-2147483648\n" .endOfInput (st [(2, 5)] [])).input =
      .line "-2147483648".toList ⟨[], .endOfInput⟩ ∧
    parseInt "-2147483648".toList = some (-2147483648) := by decide

/-- ReadIntegerWithoutAnInteger, its three clauses (V-S13, V-S16, R227). -/
theorem witness_readIntFails :
    readLine (withInput "2147483648" .endOfInput (st [(2, 5)] [])).input =
      .line "2147483648".toList ⟨[], .endOfInput⟩ ∧ parseInt "2147483648".toList = none ∧
    readLine (withInput "" .endOfInput (st [(2, 5)] [])).input = .endOfInput ∧
    readLine (withInput "4" .failure (st [(2, 5)] [])).input = .failure := by decide

/-- ExitCompletes (V-S17); UnknownServiceIsReported (V-S19). -/
theorem witness_exit_unknown : s32 ((st [(2, 10)] []).reg 2) = 10 ∧
    s32 ((st [(2, 0x10A)] []).reg 2) ≠ 1 ∧ s32 ((st [(2, 0x10A)] []).reg 2) ≠ 4 ∧
    s32 ((st [(2, 0x10A)] []).reg 2) ≠ 5 ∧ s32 ((st [(2, 0x10A)] []).reg 2) ≠ 10 := by decide

/-- InstructionsWriteOnlyTheirDestinations, a sw and a byte just past the cell it stores to. -/
theorem witness_storeFrame : exec (.sw 8 9 0) (st [(9, 8), (8, 0xCAFEF00D)] []) = .next stored ∧
    effectiveAddress 9 0 (st [(9, 8), (8, 0xCAFEF00D)] []) + 4 ≤ (12 : Nat) := ⟨rfl, by decide⟩

/-- HaltedIsSetByExitOnlyAndIsTerminal, last part. -/
theorem witness_halted : State.reset.setHalted.machine.halted = true := by decide

/-- V-A1 as a session. -/
def addSession : State := withInput "00222820\n" .endOfInput (st [(1, 3), (2, 4)] [])

/-- StepRunsTheDecodedInstruction, PlacedWordIsTheNextWord. -/
theorem witness_step : addSession.machine.halted = false ∧ addSession.ended = none ∧
    readLine addSession.input = .line "00222820".toList ⟨[], .endOfInput⟩ ∧
    parseHex "00222820".toList = .ok 0x00222820#32 ∧
    decode addSession.cfg.aluExt 0x00222820#32 = ⟨[.diag .r, .fields 1 2 5 0 0x20], .instr (.add 5 1 2 0)⟩ := by decide

/-- DecodeErrorsAreReportedAndDiscarded: an empty line (V-H6), and a word of no row (V-D6). -/
theorem witness_decodeErrors :
    readLine (withInput "\n" .endOfInput State.reset).input = .line [] ⟨[], .endOfInput⟩ ∧
    parseHex [] = .error (.wrongLength [] 0) ∧
    readLine (withInput "00000027" .endOfInput State.reset).input = .line "00000027".toList ⟨[], .endOfInput⟩ ∧
    parseHex "00000027".toList = .ok 0x27#32 ∧
    decode true 0x27#32 = ⟨[.diag .r, .fields 0 0 0 0 0x27], .reject (.unsupportedFunct 0x27 0x27#32)⟩ := by decide

/-- StreamEndEndsTheSession, its three clauses. -/
theorem witness_streamEnd : State.reset.machine.halted = false ∧ State.reset.ended = none ∧
    readLine State.reset.input = .endOfInput ∧ readLine (withInput "0" .failure State.reset).input = .failure ∧
    (State.reset.endSession .endOfInput).ended ≠ none := by decide

/-- FailedStepLeavesMachineState: the step of V-S18. -/
theorem witness_failedStep : ∃ t es e, step (State.reset.withFetchWord 32 0x0000000C) = .next t ∧
    t.out = (State.reset.withFetchWord 32 0x0000000C).out ++ es ∧ Event.err e ∈ es :=
  ⟨State.reset.emit [.diag .r, .fields 0 0 0 0 0x0C, .err (.unsupportedSyscall 0)], _, .unsupportedSyscall 0, rfl, rfl,
    by decide⟩

/-- StepReportsAtMostOneError, StepKeepsParametersOutputAndInputOrder, EveryStepKeepsTheInvariant,
AllZeroStateIsClosed: reset meets the invariant, is all zero and takes a step that changes MachineState. -/
theorem witness_invariantStep : State.reset.Inv ∧ AllZero (State.reset.withFetchWord 32 0) ∧
    (State.reset.withFetchWord 32 0).Inv ∧ ∃ t, step (State.reset.withFetchWord 32 0) = .next t ∧
      t.machine ≠ (State.reset.withFetchWord 32 0).machine := by
  have h : ∀ r : Reg, (State.reset.withFetchWord 32 0).reg r = 0 := by decide
  refine ⟨⟨by decide, by decide, by decide, by decide, by decide⟩, ⟨h, fun i => ?_, by decide⟩,
    ⟨by decide, by decide, by decide, by decide, by decide⟩,
    (State.reset.emit [.diag .r, .fields 0 0 0 0 0]).advancePc, rfl, by decide⟩
  show Memory.readCell [] i = 0
  simp only [Memory.readCell, Memory.readByte, unlistedByte]; decide

/-- LaunchGivesTheResetState: the reference launch, and a memory of one cell started with it (V-R3). -/
theorem witness_launch : Config.reference.wf ∧ Launch.wf Config.reference Launch.reference ∧
    ({ Config.reference with memWords := 1 } : Config).wf ∧
    Launch.wf { Config.reference with memWords := 1 } ⟨Vector.replicate 32 0, [5], 0x100⟩ := by decide

/-- HexParserReadsEightDigits, HexRoundTrip (V-H3); BadHexLineIsIdentified, both clauses (V-H4, V-H9). -/
theorem witness_hex : parseHex "ABCDEF01".toList = .ok 0xABCDEF01#32 ∧ hexDigit? 'f' = some 15 ∧
    "0022282".toList.length ≠ 8 ∧ "0x222820".toList.length = 8 ∧
    "0x222820".toList = ['0'] ++ 'x' :: "222820".toList ∧ (∀ d ∈ ['0'], (hexDigit? d).isSome) ∧
    hexDigit? 'x' = none :=
  ⟨by decide, by decide, by decide, by decide, by decide, by simp [hexDigit?], by decide⟩

/-- LinesEndAtLineFeeds. -/
theorem witness_lines : '\n' ∉ "00222820".toList ∧ "00222820".toList.getLast? ≠ some '\r' ∧ "00222820".toList ≠ [] := by
  decide

/-- PrintedIntegerReadsBack, at both ends of its range. -/
theorem witness_printed : -(2 ^ 31) ≤ (-2147483648 : Int) ∧ (-2147483648 : Int) < 2 ^ 31 ∧
    -(2 ^ 31) ≤ (2147483647 : Int) ∧ (2147483647 : Int) < 2 ^ 31 := by decide

/-- DecodeOfEncodeIsTheInstruction, EncodeOfDecodeIsTheWord. -/
theorem witness_roundTrip : (Instr.srl 31 31 31 31).wf true = true ∧
    (decode true (encode (.srl 31 31 31 31))).result = .instr (.srl 31 31 31 31) := by decide

/-- FormatIsAFunctionOfTheOpcode and IllegalOpcodesAreReported: the opcodes next to legal ones (V-D14, V-D15, V-D16), and
a session whose next line is such a word. -/
theorem witness_illegalOpcodes : classify (opcodeOf 0x0C000000#32) = none ∧ opcodeOf 0x0C000000#32 = 0x03 ∧
    opcodeOf 0x04000000#32 = 0x01 ∧ opcodeOf 0x14000000#32 = 0x05 ∧ classify (opcodeOf 0x08000000#32) = some .j ∧
    classify (opcodeOf 0x10220003#32) = some .i ∧
    readLine (withInput "0C000000" .endOfInput State.reset).input = .line "0C000000".toList ⟨[], .endOfInput⟩ ∧
    parseHex "0C000000".toList = .ok 0x0C000000#32 := by decide

/-- IllegalFunctsAreReported with and without ALU_EXT (V-D6, V-A18); witness_decodeErrors has the first word as a line. -/
theorem witness_illegalFuncts : opcodeOf 0x27#32 = 0 ∧
    bits 0x27#32 5 0 ∉ [0x00, 0x02, 0x0C, 0x20, 0x22, 0x24, 0x25, 0x26] ∧ opcodeOf 0x00221822#32 = 0 ∧
    bits 0x00221822#32 5 0 ∉ [0x0C, 0x20] ∧ parseHex "00221822".toList = .ok 0x00221822#32 := by decide

/-- DiagnosticsComeBeforeTheHandler: the issue of an add. -/
theorem witness_issue : ∃ t, issue 0x00222820#32 State.reset = .next t :=
  ⟨((State.reset.emit [.diag .r, .fields 1 2 5 0 0x20]).writeReg 5 0).advancePc, rfl⟩

end Sys2Proof.Tests
end

/-! ## Registers and the halted flag (10_state.md R31, R40) -/

namespace Sys2Proof.Machine

/-- Settles O1: register 0 reads 0 and discards a write; a write to any other register is seen there and nowhere
else. -/
theorem registerZeroIsHardWired : Obligations.RegisterZeroIsHardWired := by
  intro s r v
  exact ⟨s.reg_zero, s.writeReg_zero v, s.writeReg_reg_self r v, fun _ hq => s.writeReg_reg_of_ne v hq,
    s.writeReg_memByte r v, s.writeReg_pc r v,
    s.writeReg_cfg r v, s.writeReg_input r v, s.writeReg_ended r v, s.writeReg_halted r v⟩

/-! ### Who writes the flag -/

/-- Of all effects a handler can have, only the exit of service 10 writes the flag, and it sets it. -/
theorem Effect.halted_eq_or_exit {i : Instr} {s t : State} (h : Effect i s t) :
    t.machine.halted = s.machine.halted ∨
      (t.machine.halted = true ∧ s32 (s.reg 2) = 10 ∧ ∃ rs rt rd shamt, i = .syscall rs rt rd shamt) := by
  cases h with
  | exit rs rt rd shamt hi hc _ => exact .inr ⟨rfl, hc, rs, rt, rd, shamt, hi⟩
  | register rd v _ _ => exact .inl (s.writeReg_halted rd v)
  | readInt v rest _ _ _ => exact .inl ((s.setInput rest).writeReg_halted 2 (wrap32 v))
  | reported | malformed | ended | store | control | output => exact .inl rfl

/-! ### No handler reads the flag -/

/-- The state with the halted flag at a given value. -/
def State.withHalted (s : State) (b : Bool) : State := { s with machine := { s.machine with halted := b } }

/-- A result with its next state, if it has one, changed by `f`. -/
def mapNext (f : State → State) : Result → Result
  | .next t => .next (f t)
  | .fault r => .fault r
  | .refused r => .refused r

@[simp] theorem State.withHalted_input (s : State) (b : Bool) : (s.withHalted b).input = s.input := rfl

@[simp] theorem State.withHalted_memByte (s : State) (b : Bool) (a : Nat) :
    (s.withHalted b).memByte a = s.memByte a := rfl

theorem State.withHalted_writeReg (s : State) (b : Bool) (r : Reg) (v : Word) :
    (s.withHalted b).writeReg r v = (s.writeReg r v).withHalted b := by
  unfold State.writeReg; split <;> rfl

@[simp] theorem checkLs_withHalted (rs : Reg) (imm : Imm) (s : State) (b : Bool) :
    checkLs rs imm (s.withHalted b) = checkLs rs imm s := rfl

@[simp] theorem scanString_withHalted (s : State) (b : Bool) (room a : Nat) :
    scanString (s.withHalted b) room a = scanString s room a := by
  induction room generalizing a with
  | zero => rfl
  | succ room ih => simp only [scanString, State.withHalted_memByte, ih]

@[simp] theorem stringAt_withHalted (s : State) (b : Bool) (a : Int) :
    stringAt (s.withHalted b) a = stringAt s a := by
  unfold stringAt
  rw [scanString_withHalted]; rfl

/-- A register result commutes with a change of the flag. -/
theorem next_writeReg_withHalted (s : State) (b : Bool) (r : Reg) (v : Word) :
    (.next ((s.withHalted b).writeReg r v).advancePc : Result) =
      mapNext (·.withHalted b) (.next (s.writeReg r v).advancePc) := by
  rw [State.withHalted_writeReg]; rfl

theorem execLw_withHalted (rt rs : Reg) (imm : Imm) (s : State) (b : Bool) :
    execLw rt rs imm (s.withHalted b) = mapNext (·.withHalted b) (execLw rt rs imm s) := by
  unfold execLw
  rw [checkLs_withHalted]
  cases checkLs rs imm s with
  | error e => rfl
  | ok idx => exact next_writeReg_withHalted s b rt (s.readCell idx)

theorem execSw_withHalted (rt rs : Reg) (imm : Imm) (s : State) (b : Bool) :
    execSw rt rs imm (s.withHalted b) = mapNext (·.withHalted b) (execSw rt rs imm s) := by
  unfold execSw
  rw [checkLs_withHalted]
  cases checkLs rs imm s <;> rfl

theorem execBeq_withHalted (rs rt : Reg) (imm : Imm) (s : State) (b : Bool) :
    execBeq rs rt imm (s.withHalted b) = mapNext (·.withHalted b) (execBeq rs rt imm s) := by
  by_cases h : s.reg rs = s.reg rt
  · rw [execBeq_taken imm h]; exact execBeq_taken imm h
  · rw [execBeq_notTaken imm h]; exact execBeq_notTaken imm h

theorem servicePrintString_withHalted (a0 : Word) (s : State) (b : Bool) :
    servicePrintString a0 (s.withHalted b) = mapNext (·.withHalted b) (servicePrintString a0 s) := by
  unfold servicePrintString
  rw [stringAt_withHalted]
  cases stringAt s (s32 a0) <;> rfl

theorem serviceReadInt_withHalted (s : State) (b : Bool) :
    serviceReadInt (s.withHalted b) = mapNext (·.withHalted b) (serviceReadInt s) := by
  unfold serviceReadInt
  rw [State.withHalted_input]
  cases requestInt s.input with
  | int v rest => exact next_writeReg_withHalted (s.setInput rest) b 2 (wrap32 v)
  | malformed | endOfInput | failure => rfl

/-- Every service but 10 carries the flag along; service 10 overwrites it. -/
theorem execSyscall_withHalted (s : State) (b : Bool) :
    execSyscall (s.withHalted b) = mapNext (·.withHalted b) (execSyscall s) ∨
      execSyscall (s.withHalted b) = execSyscall s := by
  by_cases h1 : s32 (s.reg 2) = 1
  · left; rw [execSyscall_printInt h1]; exact execSyscall_printInt h1
  by_cases h4 : s32 (s.reg 2) = 4
  · left; rw [execSyscall_printString h4, ← servicePrintString_withHalted]; exact execSyscall_printString h4
  by_cases h5 : s32 (s.reg 2) = 5
  · left; rw [execSyscall_readInt h5, ← serviceReadInt_withHalted]; exact execSyscall_readInt h5
  by_cases h10 : s32 (s.reg 2) = 10
  · right; rw [execSyscall_exit h10]; exact execSyscall_exit h10
  · left; rw [execSyscall_unsupported h1 h4 h5 h10]; exact execSyscall_unsupported h1 h4 h5 h10

/-- No handler reads the flag: from a state with another flag it gives the same result, with that flag carried along
or, for service 10, overwritten. -/
theorem exec_withHalted (i : Instr) (s : State) (b : Bool) :
    exec i (s.withHalted b) = mapNext (·.withHalted b) (exec i s) ∨ exec i (s.withHalted b) = exec i s := by
  cases i with
  | add rd | sub rd | and rd | or rd | xor rd | sll rd | srl rd => exact .inl (next_writeReg_withHalted s b rd _)
  | syscall => exact execSyscall_withHalted s b
  | lw rt rs imm => exact .inl (execLw_withHalted rt rs imm s b)
  | sw rt rs imm => exact .inl (execSw_withHalted rt rs imm s b)
  | beq rs rt imm => exact .inl (execBeq_withHalted rs rt imm s b)
  | j => exact .inl rfl

/-! ### A halted block -/

theorem stopReason_of_halted {s : State} (h : s.machine.halted = true) : s.stopReason = some .halted := if_pos h

/-- A turn that finds a reason to stop takes no step. -/
theorem step_of_stopReason {s : State} {reason : Fault} (h : s.stopReason = some reason) :
    step s = .fault reason := by
  simp only [step, fetch, h]

/-- Settles O27: service 10 alone sets the flag, by the inversion of `exec`; no handler reads it, by the commutation of
`exec` with a change of the flag; and a turn that finds it set stops before it reads a line. -/
theorem haltedIsSetByExitOnlyAndIsTerminal : Obligations.HaltedIsSetByExitOnlyAndIsTerminal := by
  refine ⟨fun i s t h => (exec_effect h).halted_eq_or_exit, fun i s t b h => ?_,
    fun s h => step_of_stopReason (stopReason_of_halted h)⟩
  rcases exec_withHalted i s b with hc | hc <;> rw [h] at hc
  · exact ⟨b, hc⟩
  · exact ⟨t.machine.halted, hc⟩

end Sys2Proof.Machine

/-! ## Fields and opcodes (30_encoding.md R72 to R77, R82) -/

namespace Sys2Proof

/-! ### The shifter takes the named bits -/

/-- `W[hi:lo]` as a bit vector of its own width (00_scope.md R8). -/
theorem bits_eq_toNat_extractLsb' (w : Word) (hi lo : Nat) :
    bits w hi lo = (w.extractLsb' lo (hi - lo + 1)).toNat := by
  rw [bits_eq, BitVec.extractLsb'_toNat, Nat.shiftRight_eq_div_pow]

/-- The register index in the five bits of a word from `lo` on. -/
def regField (w : Word) (lo : Nat) : Reg := (w.extractLsb' lo 5).toFin

theorem regField_val (w : Word) (lo : Nat) : (regField w lo).val = (w.extractLsb' lo 5).toNat := rfl

theorem opcodeOf_eq_toNat_extractLsb' (w : Word) : opcodeOf w = (w.extractLsb' 26 6).toNat :=
  bits_eq_toNat_extractLsb' w 31 26

theorem extract_r (w : Word) : extract .r w = .r (regField w 21) (regField w 16) (regField w 11)
    (w.extractLsb' 6 5).toNat (w.extractLsb' 0 6).toNat := by
  simp only [extract, bits_eq_toNat_extractLsb', regField_val]

theorem extract_i (w : Word) :
    extract .i w = .i (regField w 21) (regField w 16) (w.extractLsb' 0 16).toNat := by
  simp only [extract, bits_eq_toNat_extractLsb', regField_val]

theorem extract_j (w : Word) : extract .j w = .j (w.extractLsb' 0 26).toNat := by
  simp only [extract, bits_eq_toNat_extractLsb']

/-! ### The encoder is the field equation of R77 -/

theorem ofNat_shiftLeft (n k : Nat) : BitVec.ofNat 32 (n <<< k) = BitVec.ofNat 32 n <<< k := by
  apply BitVec.eq_of_toNat_eq
  simp only [BitVec.toNat_shiftLeft, BitVec.toNat_ofNat, Nat.shiftLeft_eq, Nat.mod_mul_mod]

theorem packR_eq_or (opcode : Nat) (rs rt rd : Reg) (shamt : Shamt) (funct : BitVec 6) :
    packR opcode rs rt rd shamt funct.toNat =
      BitVec.ofNat 32 opcode <<< 26 ||| BitVec.ofNat 32 rs <<< 21 ||| BitVec.ofNat 32 rt <<< 16 |||
        BitVec.ofNat 32 rd <<< 11 ||| shamt.zeroExtend 32 <<< 6 ||| funct.zeroExtend 32 := by
  simp only [packR, BitVec.ofNat_or, ofNat_shiftLeft, BitVec.ofNat_toNat]

theorem packI_eq_or (opcode : Nat) (rs rt : Reg) (imm : Imm) :
    packI opcode rs rt imm =
      BitVec.ofNat 32 opcode <<< 26 ||| BitVec.ofNat 32 rs <<< 21 ||| BitVec.ofNat 32 rt <<< 16 |||
        imm.zeroExtend 32 := by
  simp only [packI, BitVec.ofNat_or, ofNat_shiftLeft, BitVec.ofNat_toNat]

theorem packJ_eq_or (opcode : Nat) (addr26 : Addr26) :
    packJ opcode addr26 = BitVec.ofNat 32 opcode <<< 26 ||| addr26.zeroExtend 32 := by
  simp only [packJ, BitVec.ofNat_or, ofNat_shiftLeft, BitVec.ofNat_toNat]

/-! ### The encoder of a format gives the word back from its fields -/

/-- The field of `n` bits at `lo` and the bits below it make one field: neighbouring fields join without gap or
overlap. -/
theorem toNat_extractLsb'_zero_add (w : Word) (lo n : Nat) :
    (w.extractLsb' 0 (lo + n)).toNat = (w.extractLsb' lo n).toNat * 2 ^ lo + (w.extractLsb' 0 lo).toNat := by
  simp only [BitVec.extractLsb'_toNat, Nat.shiftRight_eq_div_pow, pow_zero, Nat.div_one, Nat.pow_add, Nat.mod_mul]
  ring

theorem packJ_extractLsb' (w : Word) : packJ (opcodeOf w) (w.extractLsb' 0 26) = w := by
  apply BitVec.eq_of_toNat_eq
  rw [packJ_toNat _ _ (opcodeOf_lt w), opcodeOf_eq_toNat_extractLsb', ← toNat_extractLsb'_zero_add w 26 6,
    BitVec.extractLsb'_eq_self]

theorem packI_extractLsb' (w : Word) :
    packI (opcodeOf w) (regField w 21) (regField w 16) (w.extractLsb' 0 16) = w := by
  apply BitVec.eq_of_toNat_eq
  have hw := congrArg BitVec.toNat (packJ_extractLsb' w)
  rw [packJ_toNat _ _ (opcodeOf_lt w), toNat_extractLsb'_zero_add w 21 5, toNat_extractLsb'_zero_add w 16 5] at hw
  rw [packI_toNat _ _ _ _ (opcodeOf_lt w), regField_val, regField_val]
  simpa only [Nat.add_assoc] using hw

theorem packR_extractLsb' (w : Word) :
    packR (opcodeOf w) (regField w 21) (regField w 16) (regField w 11) (w.extractLsb' 6 5)
      (w.extractLsb' 0 6).toNat = w := by
  apply BitVec.eq_of_toNat_eq
  have hw := congrArg BitVec.toNat (packI_extractLsb' w)
  rw [packI_toNat _ _ _ _ (opcodeOf_lt w), toNat_extractLsb'_zero_add w 11 5, toNat_extractLsb'_zero_add w 6 5] at hw
  rw [packR_toNat _ _ _ _ _ _ (opcodeOf_lt w) (w.extractLsb' 0 6).isLt, regField_val w 11]
  simpa only [Nat.add_assoc] using hw

/-- Settles O49: the shifter takes the named bits, the encoder is the equation of R77, and neighbouring fields join up
to the whole word. -/
theorem fieldsRebuildTheWord : Obligations.FieldsRebuildTheWord := by
  intro w
  refine ⟨opcodeOf_eq_toNat_extractLsb' w, ?_, ?_, ?_⟩
  · exact ⟨regField w 21, regField w 16, regField w 11, w.extractLsb' 6 5, w.extractLsb' 0 6, extract_r w, rfl, rfl,
      rfl, rfl, rfl, by rw [← packR_eq_or, packR_extractLsb'], packR_extractLsb' w⟩
  · exact ⟨regField w 21, regField w 16, w.extractLsb' 0 16, extract_i w, rfl, rfl, rfl,
      by rw [← packI_eq_or, packI_extractLsb'], packI_extractLsb' w⟩
  · exact ⟨w.extractLsb' 0 26, extract_j w, rfl, by rw [← packJ_eq_or, packJ_extractLsb'], packJ_extractLsb' w⟩

/-! ### Illegal opcodes -/

/-- The classifier rejects every opcode but the five of R73. -/
theorem classify_eq_none_iff (opcode : Nat) :
    classify opcode = none ↔ opcode ≠ 0x00 ∧ opcode ≠ 0x02 ∧ opcode ≠ 0x04 ∧ opcode ≠ 0x23 ∧ opcode ≠ 0x2B := by
  unfold classify
  split_ifs <;> simp_all

/-- Every value of bits 25 to 0 is a word of the opcode. -/
theorem opcodeOf_ofNat {op x : Nat} (ho : op < 64) (hx : x < 2 ^ 26) :
    opcodeOf (BitVec.ofNat 32 (op * 2 ^ 26 + x)) = op := by
  rw [opcodeOf, bits_eq, BitVec.toNat_ofNat]
  omega

namespace Machine

/-- A running session whose next line is a word consumes the line and runs the word. -/
theorem step_of_word {s : State} {text : List Char} {rest : Input} {w : Word} (hh : s.machine.halted = false)
    (he : s.ended = none) (hl : readLine s.input = .line text rest) (hp : parseHex text = .ok w) :
    step s = issue w (s.setInput rest) := by
  simp only [step, fetch, (stopReason_none_iff s).2 ⟨hh, he⟩, hl, hp]

/-- A word whose opcode has no format is reported, and nothing else changes (R82). -/
theorem issue_of_classify_none {w : Word} (s : State) (h : classify (opcodeOf w) = none) :
    issue w s = .next (s.emit [.err (.unsupportedOpcode (opcodeOf w) w)]) := by
  simp [issue, decode_none _ w h, raise, State.emit]

/-- Settles O51: the count is a computation, an opcode below 64 and the 26 bits under it make a word of that opcode,
and a step on a word that the classifier rejects is its line consumed and its error raised. -/
theorem illegalOpcodesAreReported : Obligations.IllegalOpcodesAreReported := by
  refine ⟨by decide, fun op x ho hx => opcodeOf_ofNat ho hx, fun s text rest w hh he hl hp h0 h2 h4 h23 h2B => ?_⟩
  have hc : classify (opcodeOf w) = none := (classify_eq_none_iff _).2 ⟨h0, h2, h4, h23, h2B⟩
  rw [step_of_word hh he hl hp, issue_of_classify_none _ hc]
  rfl

end Machine

end Sys2Proof

/-! ## Errors and the hex parser (60_exceptions.md R203, R204, R221) -/

namespace Sys2Proof.Machine

/-! ### A step that reports an error -/

/-- The output of `t` is that of `s` with events added, none of them an error. -/
def AddsNoErr (s t : State) : Prop := ∃ es, t.out = s.out ++ es ∧ ∀ e ∈ es, e.isErr = false

theorem addsNoErr_of_out_eq {s t : State} (h : t.out = s.out) : AddsNoErr s t := ⟨[], by simp [h], by simp⟩

theorem AddsNoErr.trans {s t u : State} (hst : AddsNoErr s t) (htu : AddsNoErr t u) : AddsNoErr s u := by
  obtain ⟨es, hes, hn⟩ := hst
  obtain ⟨fs, hfs, hm⟩ := htu
  exact ⟨es ++ fs, by rw [hfs, hes, List.append_assoc], List.forall_mem_append.2 ⟨hn, hm⟩⟩

theorem AddsNoErr.err_notMem {s t : State} {es : List Event} {e : Error} (h : AddsNoErr s t)
    (ho : t.out = s.out ++ es) : .err e ∉ es := by
  obtain ⟨fs, hfs, hn⟩ := h
  obtain rfl : fs = es := List.append_cancel_left (hfs.symm.trans ho)
  exact fun he => Bool.noConfusion (hn _ he)

/-- A handler that reports an error has changed neither MachineState nor the session's end (60_exceptions.md R203). -/
theorem Effect.unchanged_or_addsNoErr {i : Instr} {s t : State} (h : Effect i s t) :
    (t.machine = s.machine ∧ t.ended = s.ended) ∨ AddsNoErr s t := by
  cases h with
  | reported | malformed => exact .inl ⟨rfl, rfl⟩
  | output e he => exact .inr ⟨[e], rfl, by simpa using he⟩
  | register | readInt => exact .inr (addsNoErr_of_out_eq (by simp))
  | ended | store | control | exit => exact .inr (addsNoErr_of_out_eq rfl)

/-- The same of a whole turn of the read loop: the decoder's own events are no errors. -/
theorem Turn.unchanged_or_addsNoErr {s t : State} (h : Turn s t) :
    (t.machine = s.machine ∧ t.ended = s.ended) ∨ AddsNoErr s t := by
  cases h with
  | streamEnd => exact .inr (addsNoErr_of_out_eq rfl)
  | badLine | rejected => exact .inl ⟨rfl, rfl⟩
  | ran text rest w i t _ _ _ hx =>
    have hd : AddsNoErr s ((s.setInput rest).emit (decode s.cfg.aluExt w).events) :=
      ⟨_, rfl, decode_events_noErr s.cfg.aluExt w⟩
    exact (exec_effect hx).unchanged_or_addsNoErr.imp_right hd.trans

/-- Settles O33, by the inversion of `step`: a turn that changes MachineState or the session's end adds no error, and a
session that takes a step is running. -/
theorem failedStepLeavesMachineState : Obligations.FailedStepLeavesMachineState := by
  intro s t es e h ho he
  obtain ⟨hr, hturn⟩ := step_turn h
  obtain ⟨hh, hn⟩ := (stopReason_none_iff s).1 hr
  rcases hturn.unchanged_or_addsNoErr with ⟨hm, hend⟩ | hno
  · exact ⟨hm, hm ▸ hh, hend.trans hn⟩
  · exact absurd he (hno.err_notMem ho)

/-! ### Decode errors -/

/-- A running session whose next line is no word consumes the line and reports it. -/
theorem step_of_badLine {s : State} {text : List Char} {rest : Input} {info : InputFormatInfo}
    (hh : s.machine.halted = false) (he : s.ended = none) (hl : readLine s.input = .line text rest)
    (hp : parseHex text = .error info) : step s = raise (.inputFormat info) (s.setInput rest) := by
  simp only [step, fetch, (stopReason_none_iff s).2 ⟨hh, he⟩, hl, hp]

/-- A word that the decoder rejects is reported, after the decoder's own events. -/
theorem issue_of_reject {w : Word} {s : State} {es : List Event} {e : Error}
    (hd : decode s.cfg.aluExt w = ⟨es, .reject e⟩) : issue w s = raise e (s.emit es) := by
  simp only [issue, hd]

/-- Settles O30: the line that is no word, and the word that decode rejects, each end the turn in a `raise`. -/
theorem decodeErrorsAreReportedAndDiscarded : Obligations.DecodeErrorsAreReportedAndDiscarded := by
  intro s text rest hh he hl
  refine ⟨fun info hp => step_of_badLine hh he hl hp, fun w es e hp hd => ?_⟩
  rw [step_of_word hh he hl hp, issue_of_reject (s := s.setInput rest) hd]
  rfl

/-! ### Hex digits -/

/-- The hex digits are the characters `[0-9A-Fa-f]`. -/
theorem hexDigit?_isSome_iff (c : Char) :
    (hexDigit? c).isSome ↔ ('0' ≤ c ∧ c ≤ '9') ∨ ('a' ≤ c ∧ c ≤ 'f') ∨ ('A' ≤ c ∧ c ≤ 'F') := by
  have hle (a b : Char) : a ≤ b ↔ a.toNat ≤ b.toNat := Iff.rfl
  simp only [hle, Char.reduceToNat]
  unfold hexDigit?
  split_ifs <;> simp <;> omega

theorem hexDigit?_getD_lt (c : Char) : (hexDigit? c).getD 0 < 16 := by
  unfold hexDigit?
  split_ifs <;> simp <;> omega

/-! ### The value of a line of hex digits -/

theorem firstBad_eq_none_iff (position : Nat) (line : List Char) :
    firstBad position line = none ↔ ∀ c ∈ line, (hexDigit? c).isSome := by
  induction line generalizing position with
  | nil => simp [firstBad]
  | cons c cs ih => cases hc : hexDigit? c <;> simp [firstBad, hc, ih]

theorem hexValue_lt (line : List Char) : hexValue line < 16 ^ line.length := by
  induction line with
  | nil => simp [hexValue]
  | cons c cs ih =>
    calc hexValue (c :: cs) < (hexDigit? c).getD 0 * 16 ^ cs.length + 16 ^ cs.length := Nat.add_lt_add_left ih _
      _ = ((hexDigit? c).getD 0 + 1) * 16 ^ cs.length := by ring
      _ ≤ 16 * 16 ^ cs.length := Nat.mul_le_mul_right _ (hexDigit?_getD_lt c)
      _ = 16 ^ (c :: cs).length := by rw [List.length_cons, pow_succ']

/-- The positional value as a sum over the positions, the first digit the most significant. -/
theorem hexValue_eq_sum (line : List Char) :
    hexValue line = ((List.range line.length).map (fun k =>
      (hexDigit? (line.getD k '0')).getD 0 * 16 ^ (line.length - 1 - k))).sum := by
  induction line with
  | nil => rfl
  | cons c cs ih =>
    simp [hexValue, ih, List.range_succ_eq_map, Function.comp_def, Nat.sub_sub, Nat.add_comm 1]

/-- The parser accepts eight hex digits and nothing else, and gives their value without overflow. -/
theorem parseHex_eq_ok_iff (line : List Char) (w : Word) :
    parseHex line = .ok w ↔
      line.length = 8 ∧ (∀ c ∈ line, (hexDigit? c).isSome) ∧ u32 w = hexValue line := by
  unfold parseHex
  by_cases hlen : line.length = 8
  · have hv : hexValue line < 2 ^ 32 := by simpa [hlen] using hexValue_lt line
    have hw : BitVec.ofNat 32 (hexValue line) = w ↔ u32 w = hexValue line := by
      rw [← BitVec.toNat_inj, BitVec.toNat_ofNat, Nat.mod_eq_of_lt hv, eq_comm]
    rw [if_neg (not_not.2 hlen), ← firstBad_eq_none_iff 0]
    cases firstBad 0 line with
    | some bad => simp
    | none => simp [hlen, hw]
  · simp [hlen]

/-- Settles O41: the digit map is read off its definition, and the parser's value is the sum over the eight
positions. -/
theorem hexParserReadsEightDigits : Obligations.HexParserReadsEightDigits := by
  refine ⟨by decide, by decide, fun c d h => (hexDigit?_isSome_iff c).1 (by simp [h]), fun line w => ?_⟩
  rw [parseHex_eq_ok_iff]
  refine and_congr_right fun hlen => and_congr_right fun _ => ?_
  rw [hexValue_eq_sum, hlen]

end Sys2Proof.Machine

/-! ## Operands and targets (30_encoding.md section 4, 41_loadstore.md section 1, 42_control.md R152, R153) -/

namespace Sys2Proof.Machine

/-! ### The assembled operands as integers -/

theorem sext16_toInt (imm : Imm) : (sext16 imm).toInt = imm.toInt :=
  BitVec.toInt_signExtend_of_le (by decide)

theorem zext16_toNat (imm : Imm) : (zext16 imm).toNat = imm.toNat :=
  BitVec.toNat_setWidth_of_le (by decide)

theorem zext16_toInt (imm : Imm) : (zext16 imm).toInt = imm.toNat := by
  have := imm.isLt
  rw [BitVec.toInt_eq_toNat_of_lt (by rw [zext16_toNat]; omega), zext16_toNat]

theorem zext26_shiftLeft_toNat (addr26 : Addr26) : (zext26 addr26 <<< 2).toNat = 4 * addr26.toNat := by
  have := addr26.isLt
  rw [BitVec.toNat_shiftLeft, zext26, BitVec.toNat_setWidth_of_le (by decide), Nat.shiftLeft_eq]
  omega

theorem imm_toInt_bounds (imm : Imm) : -32768 ≤ imm.toInt ∧ imm.toInt ≤ 32767 :=
  ⟨BitVec.le_toInt imm, Int.le_of_lt_add_one (BitVec.toInt_lt (x := imm))⟩

theorem wrap32_s32 (w : Word) : wrap32 (s32 w) = w := BitVec.ofInt_toInt

theorem branchOffset_eq_wrap32 (imm : Imm) : branchOffset imm = wrap32 (4 * imm.toInt) := by
  calc branchOffset imm = sext16 imm * wrap32 4 := BitVec.shiftLeft_eq_mul_twoPow _ _
    _ = wrap32 imm.toInt * wrap32 4 := by rw [← sext16_toInt, wrap32_s32]
    _ = wrap32 (4 * imm.toInt) := by rw [← BitVec.ofInt_mul, mul_comm]

theorem branchOffset_toInt (imm : Imm) : (branchOffset imm).toInt = 4 * imm.toInt := by
  obtain ⟨hl, hu⟩ := imm_toInt_bounds imm
  rw [branchOffset_eq_wrap32, BitVec.toInt_ofInt_eq_self (by decide) (by omega) (by omega)]

/-- Below 0x8000 the sign bit is 0, and the two extensions agree (D4). -/
theorem lsOffset_sign_eq_zero {imm : Imm} (h : imm.toNat ≤ 0x7FFF) : lsOffset .sign imm = lsOffset .zero imm := by
  apply BitVec.eq_of_toInt_eq
  rw [lsOffset, lsOffset, sext16_toInt, zext16_toInt, BitVec.toInt_eq_toNat_of_lt (by omega)]

/-- Settles O6, each operand read as an integer. -/
theorem operandAssembly : Obligations.OperandAssembly := by
  intro imm addr26
  obtain ⟨hl, hu⟩ := imm_toInt_bounds imm
  have hb := branchOffset_toInt imm
  exact ⟨hb, by rw [s32, hb]; omega, by rw [s32, hb]; omega, sext16_toInt imm, zext16_toInt imm, lsOffset_sign_eq_zero,
    zext26_shiftLeft_toNat addr26⟩

/-! ### The effective address -/

/-- Settles O7: the extended offset is the signed or the unsigned immediate. -/
theorem effectiveAddressIsTheExactSum : Obligations.EffectiveAddressIsTheExactSum := by
  intro s rs imm
  unfold effectiveAddress
  cases s.cfg.lsOffsetExt with
  | sign => simp only [lsOffset, s32, sext16_toInt]
  | zero => simp only [lsOffset, s32, zext16_toInt]

theorem lsOffset_toInt_bounds (ext : LsOffsetExt) (imm : Imm) :
    -32768 ≤ s32 (lsOffset ext imm) ∧ s32 (lsOffset ext imm) < 65536 := by
  have := imm.isLt
  obtain ⟨hl, hu⟩ := imm_toInt_bounds imm
  cases ext with
  | sign => rw [lsOffset, s32, sext16_toInt]; omega
  | zero => rw [lsOffset, s32, zext16_toInt]; omega

/-- The 32-bit sum, read signed or unsigned, is the exact sum up to a multiple of 2^32. -/
theorem wrapped_add_eq (a b : Word) {w : Int} (hw : w = s32 (a + b) ∨ w = u32 (a + b)) :
    ∃ k : Int, w = s32 a + s32 b + 4294967296 * k ∧ -2147483648 ≤ w ∧ w < 4294967296 := by
  have hs : s32 (a + b) = (s32 a + s32 b).bmod 4294967296 := BitVec.toInt_add a b
  have hdvd := Int.bmod_emod (x := s32 a + s32 b) (m := 4294967296)
  have hu : (u32 (a + b) : Int) = s32 (a + b) ∨ (u32 (a + b) : Int) = s32 (a + b) + 4294967296 := by
    rcases Nat.lt_or_ge (2 * u32 (a + b)) (2 ^ 32) with h | h
    · exact .inl (BitVec.toInt_eq_toNat_of_lt h).symm
    · right
      rw [s32, BitVec.toInt_eq_toNat_cond, if_neg (Nat.not_lt.2 h)]
      simp
  have hl : -2147483648 ≤ s32 (a + b) := BitVec.le_toInt _
  have hlt : s32 (a + b) < 2147483648 := BitVec.toInt_lt
  have hn : (u32 (a + b) : Int) < 4294967296 := by exact_mod_cast (a + b).isLt
  refine ⟨(w - (s32 a + s32 b)) / 4294967296, ?_, ?_, ?_⟩ <;> omega

/-- Settles O8: the two sums differ by a multiple of 2^32, and inside the memory, which ends at 2^30 at most, by
none. -/
theorem wrappedAddressGivesTheSameOutcome : Obligations.WrappedAddressGivesTheSameOutcome := by
  intro s rs imm w ⟨_, hmem⟩ hw
  obtain ⟨k, hk, hl, hu⟩ := wrapped_add_eq _ _ hw
  obtain ⟨hol, hou⟩ := lsOffset_toInt_bounds s.cfg.lsOffsetExt imm
  have hrl : -2147483648 ≤ s32 (s.reg rs) := BitVec.le_toInt _
  have hru : s32 (s.reg rs) < 2147483648 := BitVec.toInt_lt
  unfold effectiveAddress
  omega

/-! ### The targets of beq and j -/

theorem wrap32_add_u32 (pc : Word) (n : Int) : wrap32 (u32 pc + n) = pc + wrap32 n := by
  rw [wrap32, BitVec.ofInt_add, BitVec.ofInt_natCast, BitVec.ofNat_toNat, BitVec.setWidth_eq]

theorem branchTarget_eq_wrap32 (pc : Word) (imm : Imm) :
    branchTarget pc imm = wrap32 (u32 pc + 4 + 4 * imm.toInt) := by
  rw [add_assoc, wrap32_add_u32, wrap32, BitVec.ofInt_add, branchTarget, branchOffset_eq_wrap32, add_assoc]
  rfl

/-- Masking with 0xF0000000 keeps bits 31 to 28 and clears the others. -/
theorem and_upper4 (pc : Word) : pc &&& 0xF0000000#32 = pc >>> 28 <<< 28 := by
  have hmask : 0xF0000000#32 = BitVec.allOnes 32 <<< 28 := by decide
  ext i hi
  simp only [hmask, BitVec.getElem_and, BitVec.getElem_shiftLeft, BitVec.getElem_allOnes, BitVec.getElem_ushiftRight]
  by_cases h : i < 28
  · simp [h]
  · simp [h, hi, show 28 + (i - 28) = i by omega]

theorem jumpTarget_full (pc : Word) (addr26 : Addr26) :
    jumpTarget .full pc addr26 = BitVec.ofNat 32 (u32 pc / 2 ^ 28 * 2 ^ 28 + 4 * addr26.toNat) := by
  have ha := addr26.isLt
  have hp := pc.isLt
  apply BitVec.eq_of_toNat_eq
  rw [jumpTarget, and_upper4, BitVec.toNat_or, zext26_shiftLeft_toNat, BitVec.toNat_shiftLeft, BitVec.toNat_ushiftRight,
    BitVec.toNat_ofNat, Nat.shiftRight_eq_div_pow, Nat.mod_eq_of_lt (by rw [Nat.shiftLeft_eq]; omega),
    shift_or _ _ _ (by omega), Nat.mod_eq_of_lt (by simp only [u32]; omega)]

theorem jumpTarget_simplified (pc : Word) (addr26 : Addr26) :
    jumpTarget .simplified pc addr26 = BitVec.ofNat 32 (4 * addr26.toNat) := by
  rw [← zext26_shiftLeft_toNat, BitVec.ofNat_toNat, BitVec.setWidth_eq]; rfl

/-- Settles O14: the sequential and the taken target, as integers modulo 2^32. -/
theorem branchCompletes : Obligations.BranchCompletes := by
  intro s rs rt imm
  split_ifs with h
  · rw [← branchTarget_eq_wrap32]
    exact ⟨_, execBeq_taken imm h, setPc_setsPcOnly _ _⟩
  · rw [wrap32_add_u32]
    exact ⟨_, execBeq_notTaken imm h, setPc_setsPcOnly _ _⟩

/-- Settles O15: both forms of JUMP_MODE are the model's target. -/
theorem jumpCompletes : Obligations.JumpCompletes := by
  intro s addr26
  refine ⟨s.setPc (jumpTarget s.cfg.jumpMode s.machine.pc addr26), rfl, ?_⟩
  cases s.cfg.jumpMode with
  | full => rw [jumpTarget_full]; exact setPc_setsPcOnly _ _
  | simplified => rw [jumpTarget_simplified]; exact setPc_setsPcOnly _ _

end Sys2Proof.Machine

/-! ## What every instruction answers (60_exceptions.md section 1) -/

namespace Sys2Proof.Machine

/-! ### The two outcomes of lw and sw -/

theorem execLw_of_error {rt rs : Reg} {imm : Imm} {s : State} {e : Error} (h : checkLs rs imm s = .error e) :
    execLw rt rs imm s = raise e s := by
  simp only [execLw, h]

theorem execLw_of_ok {rt rs : Reg} {imm : Imm} {s : State} {idx : Nat} (h : checkLs rs imm s = .ok idx) :
    execLw rt rs imm s = .next (s.writeReg rt (s.readCell idx)).advancePc := by
  simp only [execLw, h]

theorem execSw_of_error {rt rs : Reg} {imm : Imm} {s : State} {e : Error} (h : checkLs rs imm s = .error e) :
    execSw rt rs imm s = raise e s := by
  simp only [execSw, h]

theorem execSw_of_ok {rt rs : Reg} {imm : Imm} {s : State} {idx : Nat} (h : checkLs rs imm s = .ok idx) :
    execSw rt rs imm s = .next (s.writeCell idx (s.reg rt)).advancePc := by
  simp only [execSw, h]

/-! ### Totality -/

theorem execLw_next (rt rs : Reg) (imm : Imm) (s : State) : ∃ t, execLw rt rs imm s = .next t := by
  cases h : checkLs rs imm s with
  | error e => exact ⟨_, execLw_of_error h⟩
  | ok idx => exact ⟨_, execLw_of_ok h⟩

theorem execSw_next (rt rs : Reg) (imm : Imm) (s : State) : ∃ t, execSw rt rs imm s = .next t := by
  cases h : checkLs rs imm s with
  | error e => exact ⟨_, execSw_of_error h⟩
  | ok idx => exact ⟨_, execSw_of_ok h⟩

theorem execBeq_next (rs rt : Reg) (imm : Imm) (s : State) : ∃ t, execBeq rs rt imm s = .next t := by
  unfold execBeq
  split_ifs <;> exact ⟨_, rfl⟩

theorem servicePrintString_next (a0 : Word) (s : State) : ∃ t, servicePrintString a0 s = .next t := by
  unfold servicePrintString
  cases stringAt s (s32 a0) <;> exact ⟨_, rfl⟩

theorem serviceReadInt_next (s : State) : ∃ t, serviceReadInt s = .next t := by
  unfold serviceReadInt
  cases requestInt s.input <;> exact ⟨_, rfl⟩

theorem execSyscall_next (s : State) : ∃ t, execSyscall s = .next t := by
  simp only [execSyscall]
  split_ifs
  · exact ⟨_, rfl⟩
  · exact servicePrintString_next _ s
  · exact serviceReadInt_next s
  · exact ⟨_, rfl⟩
  · exact ⟨_, rfl⟩

theorem exec_next (i : Instr) (s : State) : ∃ t, exec i s = .next t := by
  cases i with
  | add | sub | and | or | xor | sll | srl | j => exact ⟨_, rfl⟩
  | lw rt rs imm => exact execLw_next rt rs imm s
  | sw rt rs imm => exact execSw_next rt rs imm s
  | beq rs rt imm => exact execBeq_next rs rt imm s
  | syscall => exact execSyscall_next s

/-- Settles O25, handler by handler. -/
theorem everyInstructionAnswersNext : Obligations.EveryInstructionAnswersNext := exec_next

theorem issue_next (w : Word) (s : State) : ∃ t, issue w s = .next t := by
  unfold issue
  cases (decode s.cfg.aluExt w).result with
  | reject e => exact ⟨_, rfl⟩
  | instr i => exact exec_next i _

/-- A turn with no reason to stop ends in a next state, whatever the line holds. -/
theorem step_next {s : State} (h : s.stopReason = none) : ∃ t, step s = .next t := by
  simp only [step, fetch, h]
  cases readLine s.input with
  | endOfInput | failure => exact ⟨_, rfl⟩
  | line text rest =>
    cases hp : parseHex text with
    | error info => exact ⟨_, by simp only [hp]; rfl⟩
    | ok w => simpa only [hp] using issue_next w _

/-- Settles O32: the inversion of `step` one way, totality the other. -/
theorem stepAnswersNextExactlyWhileRunning : Obligations.StepAnswersNextExactlyWhileRunning := by
  intro s
  rw [← stopReason_none_iff]
  exact ⟨fun ⟨_, h⟩ => (step_turn h).1, step_next⟩

/-! ## What every step keeps -/

/-! ### The word-aligned pc (10_state.md R37) -/

theorem aligned_add_four {pc : Word} (h : pc.toNat % 4 = 0) : (pc + 4).toNat % 4 = 0 := by
  rw [BitVec.toNat_add, show (4 : Word).toNat = 4 from rfl]
  omega

theorem branchTarget_aligned {pc : Word} (imm : Imm) (h : pc.toNat % 4 = 0) :
    (branchTarget pc imm).toNat % 4 = 0 := by
  rw [branchTarget, BitVec.toNat_add, branchOffset, BitVec.toNat_shiftLeft, Nat.shiftLeft_eq]
  have := aligned_add_four h
  omega

theorem jumpTarget_aligned (mode : JumpMode) (pc : Word) (addr26 : Addr26) :
    (jumpTarget mode pc addr26).toNat % 4 = 0 := by
  cases mode with
  | full => rw [jumpTarget_full, BitVec.toNat_ofNat]; omega
  | simplified => rw [jumpTarget_simplified, BitVec.toNat_ofNat]; omega

theorem nextPc_aligned (i : Instr) {s : State} (h : s.machine.pc.toNat % 4 = 0) : (nextPc i s).toNat % 4 = 0 := by
  unfold nextPc
  split
  · exact jumpTarget_aligned _ _ _
  · split_ifs
    · exact branchTarget_aligned _ h
    · exact aligned_add_four h
  · exact aligned_add_four h

/-! ### The invariant under each operation -/

namespace State.Inv

theorem setPc {s : State} (h : s.Inv) {p : Word} (hp : p.toNat % 4 = 0) : (s.setPc p).Inv :=
  ⟨h.cfg, h.zeroCell, h.memory, h.extent, hp⟩

theorem advancePc {s : State} (h : s.Inv) : s.advancePc.Inv := h.setPc (aligned_add_four h.aligned)

theorem emit {s : State} (h : s.Inv) (es : List Event) : (s.emit es).Inv :=
  ⟨h.cfg, h.zeroCell, h.memory, h.extent, h.aligned⟩

theorem setInput {s : State} (h : s.Inv) (inp : Input) : (s.setInput inp).Inv :=
  ⟨h.cfg, h.zeroCell, h.memory, h.extent, h.aligned⟩

theorem endSession {s : State} (h : s.Inv) (e : SessionEnd) : (s.endSession e).Inv :=
  ⟨h.cfg, h.zeroCell, h.memory, h.extent, h.aligned⟩

theorem setHalted {s : State} (h : s.Inv) : s.setHalted.Inv :=
  ⟨h.cfg, h.zeroCell, h.memory, h.extent, h.aligned⟩

theorem writeReg {s : State} (h : s.Inv) (r : Reg) (v : Word) : (s.writeReg r v).Inv where
  cfg := by simpa using h.cfg
  zeroCell := by rw [s.writeReg_zeroCell, h.zeroCell]
  memory := by simpa using h.memory
  extent := by simpa using h.extent
  aligned := by simpa using h.aligned

theorem writeCell {s : State} (h : s.Inv) {i : Nat} (v : Word) (hi : i < s.cfg.memWords) : (s.writeCell i v).Inv where
  cfg := h.cfg
  zeroCell := h.zeroCell
  memory := Memory.wf_writeCell _ _ _ h.memory
  extent c hc := by
    rcases Memory.mem_writeCell hc with hc | hc
    · exact h.extent c hc
    · rw [State.writeCell_cfg]; omega
  aligned := h.aligned

end State.Inv

/-- Every effect of a handler keeps the invariant. -/
theorem Effect.inv {i : Instr} {s t : State} (h : Effect i s t) (hs : s.Inv) : t.Inv := by
  cases h with
  | reported e => exact hs.emit _
  | malformed text rest => exact (hs.setInput rest).emit _
  | ended e => exact hs.endSession e
  | register rd v => exact (hs.writeReg rd v).advancePc
  | store rt rs imm idx _ hc =>
    obtain ⟨_, _, hidx⟩ := (checkLs_ok_iff rs imm s idx).1 hc
    exact (hs.writeCell _ hidx).advancePc
  | control => exact hs.setPc (nextPc_aligned i hs.aligned)
  | output e => exact (hs.emit _).advancePc
  | readInt v rest => exact ((hs.setInput rest).writeReg 2 _).advancePc
  | exit => exact hs.setHalted.advancePc

/-- Settles O36, over the four kinds of turn. -/
theorem everyStepKeepsTheInvariant : Obligations.EveryStepKeepsTheInvariant := by
  intro s t hs h
  obtain ⟨_, hturn⟩ := step_turn h
  cases hturn with
  | streamEnd e => exact hs.endSession e
  | badLine text rest => exact (hs.setInput rest).emit _
  | rejected text rest => exact ((hs.setInput rest).emit _).emit _
  | ran text rest w i t _ _ _ hx => exact (exec_effect hx).inv ((hs.setInput rest).emit _)

/-! ### The all-zero state (70_reset_and_hazards.md R244) -/

theorem alu_zero_zero (op : AluOp) (sa : Shamt) : alu op 0 0 sa = 0 := by
  cases op <;> simp [alu]

namespace AllZero

theorem reg_eq_zero {s : State} (h : AllZero s) (r : Reg) : s.reg r = 0 := h.1 r

theorem readCell_eq_zero {s : State} (h : AllZero s) (i : Nat) : s.readCell i = 0 := h.2.1 i

theorem running {s : State} (h : AllZero s) : s.machine.halted = false := h.2.2

theorem writeReg_zero {s : State} (h : AllZero s) (r : Reg) : AllZero (s.writeReg r 0) := by
  refine ⟨fun q => ?_, fun i => (s.writeReg_readCell r 0 i).trans (h.readCell_eq_zero i),
    (s.writeReg_halted r 0).trans h.running⟩
  by_cases hq : q = r
  · subst hq; simp [s.writeReg_reg_self]
  · rw [s.writeReg_reg_of_ne 0 hq, h.reg_eq_zero]

theorem writeCell_zero {s : State} (h : AllZero s) (hm : s.machine.mem.wf) (i : Nat) : AllZero (s.writeCell i 0) := by
  refine ⟨h.reg_eq_zero, fun j => ?_, h.running⟩
  rw [s.writeCell_readCell i j 0 hm, h.readCell_eq_zero, ite_self]

theorem not_service {s : State} (h : AllZero s) {n : Int} (hn : n ≠ 0) : s32 (s.reg 2) ≠ n := by
  rw [h.reg_eq_zero]
  exact hn.symm

/-- An effect that writes no register leaves the state all zero: what it stores is a register's 0, and service 10 is
not reached. -/
theorem effect {i : Instr} {s t : State} (h : AllZero s) (hm : s.machine.mem.wf) (hw : ∀ r, ¬ writesReg i s r)
    (he : Effect i s t) : AllZero t := by
  cases he with
  | reported | malformed | ended | control | output => exact h
  | register rd _ hrd => exact absurd hrd (hw rd)
  | store rt rs imm idx =>
    rw [h.reg_eq_zero]
    exact h.writeCell_zero hm idx
  | readInt _ _ _ h2 => exact absurd h2 (hw 2)
  | exit _ _ _ _ _ hc => exact absurd hc (h.not_service (by decide))

theorem aluWrite {s t : State} (h : AllZero s) {op : AluOp} {rd : Reg} {a b : Word} {sa : Shamt} (ha : a = 0)
    (hb : b = 0) (hx : aluWrite op rd a b sa s = .next t) : AllZero t := by
  rw [Machine.aluWrite, ha, hb, alu_zero_zero] at hx
  cases hx
  exact h.writeReg_zero rd

theorem execLw {s t : State} (h : AllZero s) {rt rs : Reg} {imm : Imm} (hx : execLw rt rs imm s = .next t) :
    AllZero t := by
  cases hc : checkLs rs imm s with
  | error e => rw [execLw_of_error hc] at hx; cases hx; exact h
  | ok idx =>
    rw [execLw_of_ok hc, h.readCell_eq_zero] at hx
    cases hx
    exact h.writeReg_zero rt

theorem exec {i : Instr} {s t : State} (h : AllZero s) (hm : s.machine.mem.wf) (hx : exec i s = .next t) :
    AllZero t := by
  cases i with
  | add | sub | and | or | xor => exact h.aluWrite (h.reg_eq_zero _) (h.reg_eq_zero _) hx
  | sll | srl => exact h.aluWrite rfl (h.reg_eq_zero _) hx
  | lw => exact h.execLw hx
  | sw | beq | j => exact h.effect hm (fun _ => id) (exec_effect hx)
  | syscall rs rt rd shamt =>
    have hw (r : Reg) : ¬ writesReg (.syscall rs rt rd shamt) s r := fun ⟨_, h5⟩ => h.not_service (by decide) h5
    exact h.effect hm hw (exec_effect hx)

end AllZero

/-- Settles O39: a turn that runs no instruction leaves registers, cells and the flag as they are, and every
instruction computes 0 from 0. -/
theorem allZeroStateIsClosed : Obligations.AllZeroStateIsClosed := by
  intro s t hs h0 h
  obtain ⟨_, hturn⟩ := step_turn h
  cases hturn with
  | streamEnd | badLine | rejected => exact h0
  | ran text rest w i t _ _ _ hx =>
    have h0' : AllZero ((s.setInput rest).emit (decode s.cfg.aluExt w).events) := h0
    exact h0'.exec hs.memory hx

/-! ### The pc (10_state.md section 3) -/

/-- A register result commutes with a change of the pc. -/
theorem writeReg_advancePc_setPc (s : State) (p : Word) (r : Reg) (v : Word) :
    (.next ((s.setPc p).writeReg r v).advancePc : Result) =
      mapNext (·.setPc (p + 4)) (.next (s.writeReg r v).advancePc) := by
  rw [State.setPc_writeReg]; rfl

@[simp] theorem scanString_setPc (s : State) (p : Word) (room a : Nat) :
    scanString (s.setPc p) room a = scanString s room a := by
  induction room generalizing a with
  | zero => rfl
  | succ room ih => simp only [scanString, State.setPc_memByte, ih]

@[simp] theorem stringAt_setPc (s : State) (p : Word) (a : Int) : stringAt (s.setPc p) a = stringAt s a := by
  simp only [stringAt, scanString_setPc, State.setPc_cfg]

theorem execLw_setPc (rt rs : Reg) (imm : Imm) (s : State) (p : Word) :
    ∃ q, execLw rt rs imm (s.setPc p) = mapNext (·.setPc q) (execLw rt rs imm s) := by
  have hp : checkLs rs imm (s.setPc p) = checkLs rs imm s := rfl
  cases h : checkLs rs imm s with
  | error e => rw [execLw_of_error h, execLw_of_error (hp.trans h)]; exact ⟨p, rfl⟩
  | ok idx =>
    rw [execLw_of_ok h, execLw_of_ok (hp.trans h)]
    exact ⟨_, writeReg_advancePc_setPc s p rt (s.readCell idx)⟩

theorem execSw_setPc (rt rs : Reg) (imm : Imm) (s : State) (p : Word) :
    ∃ q, execSw rt rs imm (s.setPc p) = mapNext (·.setPc q) (execSw rt rs imm s) := by
  have hp : checkLs rs imm (s.setPc p) = checkLs rs imm s := rfl
  cases h : checkLs rs imm s with
  | error e => rw [execSw_of_error h, execSw_of_error (hp.trans h)]; exact ⟨p, rfl⟩
  | ok idx => rw [execSw_of_ok h, execSw_of_ok (hp.trans h)]; exact ⟨p + 4, rfl⟩

theorem execBeq_setPc (rs rt : Reg) (imm : Imm) (s : State) (p : Word) :
    ∃ q, execBeq rs rt imm (s.setPc p) = mapNext (·.setPc q) (execBeq rs rt imm s) := by
  by_cases h : s.reg rs = s.reg rt
  · rw [execBeq_taken imm h, execBeq_taken (s := s.setPc p) imm h]; exact ⟨branchTarget p imm, rfl⟩
  · rw [execBeq_notTaken imm h, execBeq_notTaken (s := s.setPc p) imm h]; exact ⟨p + 4, rfl⟩

theorem servicePrintString_setPc (a0 : Word) (s : State) (p : Word) :
    ∃ q, servicePrintString a0 (s.setPc p) = mapNext (·.setPc q) (servicePrintString a0 s) := by
  unfold servicePrintString
  rw [stringAt_setPc]
  cases stringAt s (s32 a0) with
  | none => exact ⟨p, rfl⟩
  | some bytes => exact ⟨p + 4, rfl⟩

theorem serviceReadInt_setPc (s : State) (p : Word) :
    ∃ q, serviceReadInt (s.setPc p) = mapNext (·.setPc q) (serviceReadInt s) := by
  unfold serviceReadInt
  rw [State.setPc_input]
  cases requestInt s.input with
  | int v rest => exact ⟨_, writeReg_advancePc_setPc (s.setInput rest) p 2 (wrap32 v)⟩
  | malformed | endOfInput | failure => exact ⟨p, rfl⟩

theorem execSyscall_setPc (s : State) (p : Word) :
    ∃ q, execSyscall (s.setPc p) = mapNext (·.setPc q) (execSyscall s) := by
  by_cases h1 : s32 (s.reg 2) = 1
  · rw [execSyscall_printInt h1, execSyscall_printInt (s := s.setPc p) h1]; exact ⟨p + 4, rfl⟩
  by_cases h4 : s32 (s.reg 2) = 4
  · rw [execSyscall_printString h4, execSyscall_printString (s := s.setPc p) h4]
    exact servicePrintString_setPc _ s p
  by_cases h5 : s32 (s.reg 2) = 5
  · rw [execSyscall_readInt h5, execSyscall_readInt (s := s.setPc p) h5]; exact serviceReadInt_setPc s p
  by_cases h10 : s32 (s.reg 2) = 10
  · rw [execSyscall_exit h10, execSyscall_exit (s := s.setPc p) h10]; exact ⟨p + 4, rfl⟩
  · rw [execSyscall_unsupported h1 h4 h5 h10, execSyscall_unsupported (s := s.setPc p) h1 h4 h5 h10]; exact ⟨p, rfl⟩

/-- From a state with another pc a handler gives the same result up to the pc. -/
theorem exec_setPc (i : Instr) (s : State) (p : Word) :
    ∃ q, exec i (s.setPc p) = mapNext (·.setPc q) (exec i s) := by
  cases i with
  | add rd | sub rd | and rd | or rd | xor rd | sll rd | srl rd => exact ⟨_, writeReg_advancePc_setPc s p rd _⟩
  | lw rt rs imm => exact execLw_setPc rt rs imm s p
  | sw rt rs imm => exact execSw_setPc rt rs imm s p
  | beq rs rt imm => exact execBeq_setPc rs rt imm s p
  | j a => exact ⟨jumpTarget s.cfg.jumpMode p a, rfl⟩
  | syscall => exact execSyscall_setPc s p

theorem issue_setPc (w : Word) (s : State) (p : Word) :
    ∃ q, issue w (s.setPc p) = mapNext (·.setPc q) (issue w s) := by
  simp only [issue, State.setPc_cfg]
  cases (decode s.cfg.aluExt w).result with
  | reject e => exact ⟨p, rfl⟩
  | instr i => exact exec_setPc i (s.emit (decode s.cfg.aluExt w).events) p

theorem step_setPc (s : State) (p : Word) : ∃ q, step (s.setPc p) = mapNext (·.setPc q) (step s) := by
  have hf : fetch (s.setPc p) = fetch s := rfl
  simp only [step, hf]
  cases fetch s with
  | stopped reason => exact ⟨p, rfl⟩
  | streamEnd e => exact ⟨p, rfl⟩
  | badLine info rest => exact ⟨p, rfl⟩
  | word w rest => exact issue_setPc w (s.setInput rest) p

/-- Settles O40: a step from a state with another pc is the same step up to the pc, and a step that does not answer a
next state has a reason to stop. -/
theorem pcIsNotObservable : Obligations.PcIsNotObservable := by
  intro s p
  obtain ⟨q, hq⟩ := step_setPc s p
  cases hr : s.stopReason with
  | some reason =>
    rw [step_of_stopReason hr] at hq ⊢
    exact hq
  | none =>
    obtain ⟨t, ht⟩ := step_next hr
    rw [ht] at hq ⊢
    exact ⟨q, hq⟩

end Sys2Proof.Machine

/-! ## The decoder (30_encoding.md) -/

namespace Sys2Proof

/-! ### The pipeline up to dispatch -/

/-- The checked fields of a word in a format. -/
def fieldsOf (fmt : Format) (w : Word) : Fields :=
  match fmt with
  | .r => .r (regField w 21) (regField w 16) (regField w 11) (w.extractLsb' 6 5) (w.extractLsb' 0 6)
  | .i => .i (regField w 21) (regField w 16) (w.extractLsb' 0 16)
  | .j => .j (w.extractLsb' 0 26)

theorem checkReg_val (field : FieldName) (r : Reg) : checkReg field r.val = .ok r := checkReg_bits field r.val r.isLt

/-- The range check passes on the fields of every word (R78). -/
theorem checkFields_extract (fmt : Format) (w : Word) : checkFields (extract fmt w) = .ok (fieldsOf fmt w) := by
  cases fmt with
  | r => simp only [extract_r, checkFields, checkReg_val, fieldsOf, BitVec.ofNat_toNat, BitVec.setWidth_eq]
  | i => simp only [extract_i, checkFields, checkReg_val, fieldsOf, BitVec.ofNat_toNat, BitVec.setWidth_eq]
  | j => simp only [extract_j, checkFields, fieldsOf, BitVec.ofNat_toNat, BitVec.setWidth_eq]

theorem decode_of_classify (aluExt : Bool) {w : Word} {fmt : Format} (h : classify (opcodeOf w) = some fmt) :
    decode aluExt w = ⟨diagnostics (fieldsOf fmt w), dispatch aluExt w (fieldsOf fmt w)⟩ := by
  simp only [decode, h, checkFields_extract]

theorem classify_eq_r_iff (opcode : Nat) : classify opcode = some .r ↔ opcode = 0 := by
  unfold classify
  split_ifs <;> simp_all

/-! ### The fields of a packed word -/

theorem toNat_extractLsb'_eq_div (w : Word) (lo n : Nat) :
    (w.extractLsb' lo n).toNat = w.toNat / 2 ^ lo % 2 ^ n := by
  rw [BitVec.extractLsb'_toNat, Nat.shiftRight_eq_div_pow]

theorem opcodeOf_packR {opcode : Nat} (rs rt rd : Reg) (shamt : Shamt) {funct : Nat} (ho : opcode < 64)
    (hf : funct < 64) : opcodeOf (packR opcode rs rt rd shamt funct) = opcode := by
  have hrs := rs.isLt; have hrt := rt.isLt; have hrd := rd.isLt; have hsh := shamt.isLt
  rw [opcodeOf, bits_eq, packR_toNat _ _ _ _ _ _ ho hf]
  omega

theorem opcodeOf_packI {opcode : Nat} (rs rt : Reg) (imm : Imm) (ho : opcode < 64) :
    opcodeOf (packI opcode rs rt imm) = opcode := by
  have hrs := rs.isLt; have hrt := rt.isLt; have himm := imm.isLt
  rw [opcodeOf, bits_eq, packI_toNat _ _ _ _ ho]
  omega

theorem opcodeOf_packJ {opcode : Nat} (addr26 : Addr26) (ho : opcode < 64) :
    opcodeOf (packJ opcode addr26) = opcode := by
  have ha := addr26.isLt
  rw [opcodeOf, bits_eq, packJ_toNat _ _ ho]
  omega

theorem fieldsOf_packR {opcode : Nat} (rs rt rd : Reg) (shamt : Shamt) {funct : Nat} (ho : opcode < 64)
    (hf : funct < 64) :
    fieldsOf .r (packR opcode rs rt rd shamt funct) = .r rs rt rd shamt (BitVec.ofNat 6 funct) := by
  have hrs := rs.isLt; have hrt := rt.isLt; have hrd := rd.isLt; have hsh := shamt.isLt
  simp only [fieldsOf, Fields.r.injEq, Fin.ext_iff, ← BitVec.toNat_inj, regField_val, toNat_extractLsb'_eq_div,
    packR_toNat _ _ _ _ _ _ ho hf, BitVec.toNat_ofNat]
  omega

theorem fieldsOf_packI {opcode : Nat} (rs rt : Reg) (imm : Imm) (ho : opcode < 64) :
    fieldsOf .i (packI opcode rs rt imm) = .i rs rt imm := by
  have hrs := rs.isLt; have hrt := rt.isLt; have himm := imm.isLt
  simp only [fieldsOf, Fields.i.injEq, Fin.ext_iff, ← BitVec.toNat_inj, regField_val, toNat_extractLsb'_eq_div,
    packI_toNat _ _ _ _ ho]
  omega

theorem fieldsOf_packJ {opcode : Nat} (addr26 : Addr26) (ho : opcode < 64) :
    fieldsOf .j (packJ opcode addr26) = .j addr26 := by
  have ha := addr26.isLt
  simp only [fieldsOf, Fields.j.injEq, ← BitVec.toNat_inj, toNat_extractLsb'_eq_div, packJ_toNat _ _ ho]
  omega

/-! ### Decoding an encoding -/

theorem decode_packR (aluExt : Bool) (rs rt rd : Reg) (shamt : Shamt) {funct : Nat} (hf : funct < 64) :
    (decode aluExt (packR 0 rs rt rd shamt funct)).result =
      dispatch aluExt (packR 0 rs rt rd shamt funct) (.r rs rt rd shamt (BitVec.ofNat 6 funct)) := by
  have hc : classify (opcodeOf (packR 0 rs rt rd shamt funct)) = some .r := by
    rw [opcodeOf_packR _ _ _ _ (by decide) hf]; rfl
  rw [decode_of_classify _ hc, fieldsOf_packR _ _ _ _ (by decide) hf]

theorem decode_packI (aluExt : Bool) {opcode : Nat} (rs rt : Reg) (imm : Imm) {i : Instr}
    (hc : classify opcode = some .i) (hd : dispatchI opcode rs rt imm = some i) :
    (decode aluExt (packI opcode rs rt imm)).result = .instr i := by
  have ho : opcode < 64 := by rcases classify_cases hc with h | h | h <;> omega
  have hop := opcodeOf_packI rs rt imm ho
  rw [decode_of_classify aluExt (hop ▸ hc), fieldsOf_packI _ _ _ ho]
  simp only [dispatch, hop, hd]

theorem decode_packJ (aluExt : Bool) (addr26 : Addr26) :
    (decode aluExt (packJ 2 addr26)).result = .instr (.j addr26) := by
  have hc : classify (opcodeOf (packJ 2 addr26)) = some .j := by rw [opcodeOf_packJ _ (by decide)]; rfl
  rw [decode_of_classify _ hc, fieldsOf_packJ _ (by decide)]
  rfl

/-- Settles O47, by the fields of a packed word and the row each instruction's opcode and funct select. -/
theorem decodeOfEncodeIsTheInstruction : Obligations.DecodeOfEncodeIsTheInstruction := by
  intro aluExt i h
  cases i with
  | add rd rs rt shamt => exact (decode_packR aluExt rs rt rd shamt (by decide)).trans rfl
  | syscall rs rt rd shamt => exact (decode_packR aluExt rs rt rd shamt (by decide)).trans rfl
  | sub rd rs rt shamt | and rd rs rt shamt | or rd rs rt shamt | xor rd rs rt shamt | sll rd rt shamt rs
  | srl rd rt shamt rs =>
    obtain rfl : aluExt = true := by simpa [Instr.wf, Instr.needsAluExt] using h
    exact (decode_packR true rs rt rd shamt (by decide)).trans rfl
  | lw rt rs imm => exact decode_packI aluExt rs rt imm rfl rfl
  | sw rt rs imm => exact decode_packI aluExt rs rt imm rfl rfl
  | beq rs rt imm => exact decode_packI aluExt rs rt imm rfl rfl
  | j addr26 => exact decode_packJ aluExt addr26

theorem decode_of_encode_eq {aluExt : Bool} {i : Instr} {w : Word} (he : encode i = w) (h : i.wf aluExt = true) :
    (decode aluExt w).result = .instr i :=
  he ▸ decodeOfEncodeIsTheInstruction aluExt i h

/-! ### The outcomes of a decode -/

theorem dispatchR_some {aluExt : Bool} {rs rt rd : Reg} {shamt : Shamt} {funct : Nat} {i : Instr}
    (h : dispatchR aluExt rs rt rd shamt funct = some i) :
    encode i = packR 0 rs rt rd shamt funct ∧ i.wf aluExt = true := by
  simp only [dispatchR, ite_eq_iff, Option.some.injEq, reduceCtorEq, and_false, or_false, false_or] at h
  rcases h with ⟨rfl, rfl⟩ | ⟨-, ⟨rfl, rfl⟩ | ⟨-, hext, h⟩⟩
  · exact ⟨rfl, by simp [Instr.wf, Instr.needsAluExt]⟩
  · exact ⟨rfl, by simp [Instr.wf, Instr.needsAluExt]⟩
  · obtain rfl : aluExt = true := by simpa using hext
    rcases h with ⟨rfl, rfl⟩ | ⟨-, ⟨rfl, rfl⟩ | ⟨-, ⟨rfl, rfl⟩ | ⟨-, ⟨rfl, rfl⟩ | ⟨-, ⟨rfl, rfl⟩ | ⟨-, rfl, rfl⟩⟩⟩⟩⟩ <;>
      exact ⟨rfl, rfl⟩

theorem dispatchI_of_classify {opcode : Nat} (aluExt : Bool) (rs rt : Reg) (imm : Imm)
    (h : classify opcode = some .i) :
    ∃ i, dispatchI opcode rs rt imm = some i ∧ encode i = packI opcode rs rt imm ∧ i.wf aluExt = true := by
  have hop : opcode = 0x04 ∨ opcode = 0x23 ∨ opcode = 0x2B := by
    rcases classify_cases h with ⟨_, hf⟩ | ⟨_, hf⟩ | ⟨hop, _⟩
    · cases hf
    · cases hf
    · exact hop
  rcases hop with rfl | rfl | rfl
  · exact ⟨.beq rs rt imm, rfl, rfl, by simp [Instr.wf, Instr.needsAluExt]⟩
  · exact ⟨.lw rt rs imm, rfl, rfl, by simp [Instr.wf, Instr.needsAluExt]⟩
  · exact ⟨.sw rt rs imm, rfl, rfl, by simp [Instr.wf, Instr.needsAluExt]⟩

/-- A word decodes to an instruction of the block whose encoding it is, or is rejected by its opcode or its funct. -/
theorem decode_cases (aluExt : Bool) (w : Word) :
    (∃ i, (decode aluExt w).result = .instr i ∧ encode i = w ∧ i.wf aluExt = true) ∨
    ((decode aluExt w).result = .reject (.unsupportedOpcode (opcodeOf w) w) ∧ classify (opcodeOf w) = none) ∨
    ((decode aluExt w).result = .reject (.unsupportedFunct (bits w 5 0) w) ∧ opcodeOf w = 0) := by
  cases hc : classify (opcodeOf w) with
  | none => exact .inr (.inl ⟨by rw [decode_none _ _ hc], rfl⟩)
  | some fmt =>
    rw [decode_of_classify _ hc]
    cases fmt with
    | r =>
      have h0 : opcodeOf w = 0 := (classify_eq_r_iff _).1 hc
      have hw := packR_extractLsb' w
      rw [h0] at hw
      simp only [fieldsOf, dispatch]
      cases hd : dispatchR aluExt (regField w 21) (regField w 16) (regField w 11) (w.extractLsb' 6 5)
          (w.extractLsb' 0 6).toNat with
      | none => exact .inr (.inr ⟨by rw [bits_eq_toNat_extractLsb'], h0⟩)
      | some i =>
        obtain ⟨he, hwf⟩ := dispatchR_some hd
        exact .inl ⟨i, rfl, he.trans hw, hwf⟩
    | i =>
      obtain ⟨i, hd, he, hwf⟩ := dispatchI_of_classify aluExt (regField w 21) (regField w 16) (w.extractLsb' 0 16) hc
      exact .inl ⟨i, by simp only [fieldsOf, dispatch, hd], he.trans (packI_extractLsb' w), hwf⟩
    | j =>
      have h2 : opcodeOf w = 2 := by
        rcases classify_cases hc with ⟨_, hf⟩ | ⟨h2, _⟩ | ⟨_, hf⟩
        · cases hf
        · exact h2
        · cases hf
      exact .inl ⟨_, rfl, by rw [encode, ← h2, packJ_extractLsb'], by simp [Instr.wf, Instr.needsAluExt]⟩

/-- Settles O48: of the outcomes of a decode only the first is an instruction. -/
theorem encodeOfDecodeIsTheWord : Obligations.EncodeOfDecodeIsTheWord := by
  intro aluExt w i h
  rcases decode_cases aluExt w with ⟨i', hi, he, hwf⟩ | ⟨hr, _⟩ | ⟨hr, _⟩
  · obtain rfl : i = i' := DecodeResult.instr.inj (h.symm.trans hi)
    exact ⟨he, hwf⟩
  · cases h.symm.trans hr
  · cases h.symm.trans hr

/-- Settles O54, by the outcomes of a decode. -/
theorem everyWordHasOneDecoding : Obligations.EveryWordHasOneDecoding := fun aluExt w =>
  (decode_cases aluExt w).imp_left fun ⟨i, hi, _, hwf⟩ => ⟨i, hi, hwf⟩

/-- Settles O53: no outcome of a decode is a FieldRangeError. -/
theorem fieldRangeErrorIsNeverRaised : Obligations.FieldRangeErrorIsNeverRaised := by
  refine ⟨fun field value h => dif_neg (Nat.not_lt.2 h), fun aluExt w field value h => ?_⟩
  rcases decode_cases aluExt w with ⟨_, hr, _, _⟩ | ⟨hr, _⟩ | ⟨hr, _⟩ <;> cases h.symm.trans hr

/-! ### Formats and diagnostics -/

theorem diagnostics_fieldsOf (fmt : Format) (w : Word) : ∃ es, diagnostics (fieldsOf fmt w) = .diag fmt :: es := by
  cases fmt <;> exact ⟨_, rfl⟩

/-- The classifier as a function of the six opcode bits (R73). -/
theorem classify_toNat (x : BitVec 6) : classify x.toNat =
    (if x = 0b000000#6 then some .r
     else if x = 0b000010#6 then some .j
     else if x = 0b000100#6 then some .i
     else if x = 0b100011#6 then some .i
     else if x = 0b101011#6 then some .i
     else none) := by
  simp only [classify, ← BitVec.toNat_inj, BitVec.reduceToNat]

/-- Settles O50: opcode and classifier as functions of the six bits, and the decode of either outcome. -/
theorem formatIsAFunctionOfTheOpcode : Obligations.FormatIsAFunctionOfTheOpcode := by
  intro w aluExt
  refine ⟨opcodeOf_eq_toNat_extractLsb' w, opcodeOf_lt w, ?_, fun h => by rw [decode_none _ _ h], fun fmt h => ?_⟩
  · rw [opcodeOf_eq_toNat_extractLsb', classify_toNat]
  · rw [decode_of_classify _ h]
    exact diagnostics_fieldsOf fmt w

namespace Machine

/-- A handler only adds events to the output. -/
theorem Effect.out_append {i : Instr} {s t : State} (h : Effect i s t) : ∃ es, t.out = s.out ++ es := by
  cases h with
  | reported | malformed | output => exact ⟨_, rfl⟩
  | register | readInt | ended | store | control | exit => exact ⟨[], by simp⟩

theorem issue_out_append {w : Word} {s t : State} (h : issue w s = .next t) :
    ∃ es, t.out = s.out ++ (decode s.cfg.aluExt w).events ++ es := by
  unfold issue at h
  cases hd : (decode s.cfg.aluExt w).result with
  | reject e => rw [hd] at h; cases h; exact ⟨_, rfl⟩
  | instr i => rw [hd] at h; exact (exec_effect h).out_append

/-- Settles O55: the events of a word are the diagnostics of its fields, and its handler runs on a state that has
them. -/
theorem diagnosticsComeBeforeTheHandler : Obligations.DiagnosticsComeBeforeTheHandler := by
  refine ⟨fun aluExt w => ⟨fun h => ?_, fun h => ?_, fun h => ?_, fun h => ?_⟩, fun w s t h => issue_out_append h⟩
  · rw [decode_of_classify _ ((classify_eq_r_iff _).2 h)]
    exact ⟨regField w 21, regField w 16, regField w 11, w.extractLsb' 6 5, w.extractLsb' 0 6, rfl,
      (bits_eq_toNat_extractLsb' w 25 21).symm, (bits_eq_toNat_extractLsb' w 20 16).symm,
      (bits_eq_toNat_extractLsb' w 15 11).symm, (bits_eq_toNat_extractLsb' w 10 6).symm,
      (bits_eq_toNat_extractLsb' w 5 0).symm⟩
  · rw [decode_of_classify _ h]; rfl
  · rw [decode_of_classify _ h]; rfl
  · rw [decode_none _ _ h]

/-! ### Illegal functs and ignored fields -/

theorem dispatchR_eq_none {aluExt : Bool} (rs rt rd : Reg) (shamt : Shamt) {funct : Nat}
    (h : funct ∉ (if aluExt then [0x00, 0x02, 0x0C, 0x20, 0x22, 0x24, 0x25, 0x26] else [0x0C, 0x20])) :
    dispatchR aluExt rs rt rd shamt funct = none := by
  cases aluExt <;> simp_all [dispatchR]

/-- A word that is 0 above its six lowest bits has that funct and no other field. -/
theorem decode_funct (aluExt : Bool) {funct : Nat} (hf : funct < 64) :
    (decode aluExt (BitVec.ofNat 32 funct)).result.instr? = dispatchR aluExt 0 0 0 0 funct := by
  have hw : BitVec.ofNat 32 funct = packR 0 0 0 0 0 funct := by simp [packR]
  rw [hw, decode_packR aluExt 0 0 0 0 hf]
  simp only [dispatch, BitVec.toNat_ofNat, Nat.mod_eq_of_lt (show funct < 2 ^ 6 by omega)]
  cases dispatchR aluExt 0 0 0 0 funct <;> rfl

theorem length_illegalFuncts (aluExt : Bool) :
    ((List.range 64).filter (fun f => (decode aluExt (BitVec.ofNat 32 f)).result.instr?.isNone)).length =
      if aluExt then 56 else 62 := by
  rw [List.filter_congr fun f hf => congrArg Option.isNone (decode_funct aluExt (List.mem_range.1 hf))]
  cases aluExt <;> decide

/-- Settles O52: such a word is rejected by the dispatch table. -/
theorem illegalFunctsAreReported : Obligations.IllegalFunctsAreReported := by
  refine ⟨fun s text rest w hh he hl hp h0 hf => ?_, length_illegalFuncts⟩
  have hd : decode s.cfg.aluExt w =
      ⟨diagnostics (fieldsOf .r w), .reject (.unsupportedFunct (bits w 5 0) w)⟩ := by
    rw [bits_eq_toNat_extractLsb'] at hf
    rw [decode_of_classify _ ((classify_eq_r_iff _).2 h0), bits_eq_toNat_extractLsb']
    simp only [fieldsOf, dispatch, dispatchR_eq_none _ _ _ _ hf]
  rw [step_of_word hh he hl hp, issue_of_reject (s := s.setInput rest) hd, hd]
  exact ⟨rfl, rfl⟩

/-- Settles O56: the word is the encoding of the instruction with those fields, and the handler does not get them. -/
theorem ignoredFieldsHaveNoEffect : Obligations.IgnoredFieldsHaveNoEffect := by
  intro rs rt rd shamt s
  refine ⟨fun funct mk h => ?_, fun funct mk h => ?_,
    decode_of_encode_eq rfl rfl, rfl⟩
  · simp only [List.mem_cons, Prod.mk.injEq, List.not_mem_nil, or_false] at h
    rcases h with ⟨rfl, rfl⟩ | ⟨rfl, rfl⟩ | ⟨rfl, rfl⟩ | ⟨rfl, rfl⟩ | ⟨rfl, rfl⟩ <;>
      exact ⟨decode_of_encode_eq rfl rfl, rfl⟩
  · simp only [List.mem_cons, Prod.mk.injEq, List.not_mem_nil, or_false] at h
    rcases h with ⟨rfl, rfl⟩ | ⟨rfl, rfl⟩ <;> exact ⟨decode_of_encode_eq rfl rfl, rfl⟩

/-- Settles O57: each word is decoded by computation. -/
theorem sampleWordsDecode : Obligations.SampleWordsDecode := by
  unfold Obligations.SampleWordsDecode
  decide

end Machine

end Sys2Proof

/-! ## The ALU (40_alu.md) -/

namespace Sys2Proof.Machine

theorem wrap32_add (a b : Word) : wrap32 (s32 a + s32 b) = a + b := by
  rw [wrap32, BitVec.ofInt_add, BitVec.ofInt_toInt, BitVec.ofInt_toInt]

theorem wrap32_sub (a b : Word) : wrap32 (s32 a - s32 b) = a - b := by
  rw [wrap32, sub_eq_add_neg, BitVec.ofInt_add, BitVec.ofInt_neg, BitVec.ofInt_toInt, BitVec.ofInt_toInt,
    ← BitVec.sub_eq_add_neg]

theorem shiftLeft_eq_ofNat (w : Word) (n : Nat) : w <<< n = BitVec.ofNat 32 (u32 w * 2 ^ n) := by
  rw [← Nat.shiftLeft_eq]
  exact BitVec.eq_of_toNat_eq (by rw [BitVec.toNat_shiftLeft, BitVec.toNat_ofNat])

theorem ushiftRight_eq_ofNat (w : Word) (n : Nat) : w >>> n = BitVec.ofNat 32 (u32 w / 2 ^ n) := by
  rw [← Nat.shiftRight_eq_div_pow, u32, ← BitVec.toNat_ushiftRight, BitVec.ofNat_toNat, BitVec.setWidth_eq]

/-- An ALU instruction writes its result and advances the pc. -/
theorem aluWrite_writesRegister (op : AluOp) (rd : Reg) (a b : Word) (sa : Shamt) (s : State) :
    ∃ t, aluWrite op rd a b sa s = .next t ∧ WritesRegister s t rd (alu op a b sa) :=
  ⟨_, rfl, writeReg_advancePc s rd _⟩

/-- Settles O2: the sum of words is the wrapped sum of their signed values (D1). -/
theorem addCompletes : Obligations.AddCompletes := by
  intro s rd rs rt _
  rw [wrap32_add]
  exact aluWrite_writesRegister .add rd (s.reg rs) (s.reg rt) 0 s

/-- Settles O3: the difference of words is the wrapped difference of their signed values (D14). -/
theorem subCompletes : Obligations.SubCompletes := by
  intro s rd rs rt _
  rw [wrap32_sub]
  exact aluWrite_writesRegister .sub rd (s.reg rs) (s.reg rt) 0 s

/-- Settles O4, the ALU's three bitwise operations. -/
theorem bitwiseInstructionsComplete : Obligations.BitwiseInstructionsComplete := fun s rd rs rt _ =>
  ⟨aluWrite_writesRegister .and rd (s.reg rs) (s.reg rt) 0 s, aluWrite_writesRegister .or rd (s.reg rs) (s.reg rt) 0 s,
    aluWrite_writesRegister .xor rd (s.reg rs) (s.reg rt) 0 s⟩

/-- Settles O5: a shift by n places is a product with or a quotient by 2^n. -/
theorem shiftsComplete : Obligations.ShiftsComplete := by
  intro s rd rt rs shamt
  rw [← shiftLeft_eq_ofNat, ← ushiftRight_eq_ofNat]
  exact ⟨aluWrite_writesRegister .sll rd 0 (s.reg rt) shamt s, aluWrite_writesRegister .srl rd 0 (s.reg rt) shamt s⟩

/-! ## Load and store (41_loadstore.md) -/

/-- Settles O9: the checks pass, so the cell is written to the register. -/
theorem loadCompletes : Obligations.LoadCompletes := by
  intro s rt rs imm idx himm hea hidx
  exact ⟨_, execLw_of_ok ((checkLs_ok_iff rs imm s idx).2 ⟨himm, hea, hidx⟩), writeReg_advancePc s rt _⟩

/-- A store leaves every byte outside its four alone. -/
theorem memByte_writeCell_of_outside (s : State) {idx a : Nat} {ea : Int} (v : Word) (hea : ea = 4 * idx)
    (ha : a < ea ∨ ea + 4 ≤ a) : (s.writeCell idx v).memByte a = s.memByte a :=
  s.writeCell_memByte_of_ne v (by omega)

/-- Settles O10: the checks pass, so the cell is written. -/
theorem storeCompletes : Obligations.StoreCompletes := by
  intro s rt rs imm idx hm himm hea hidx
  refine ⟨_, execSw_of_ok ((checkLs_ok_iff rs imm s idx).2 ⟨himm, hea, hidx⟩), ?_,
    fun a ha => memByte_writeCell_of_outside s _ hea ha, fun _ => rfl, rfl, rfl, rfl, rfl, rfl, rfl⟩
  rw [State.advancePc_readCell, s.writeCell_readCell idx idx _ hm, if_pos rfl]

/-! ### The errors of lw and sw -/

theorem checkLs_misaligned_imm {rs : Reg} {imm : Imm} {s : State} (h : imm.toNat % 4 ≠ 0) :
    checkLs rs imm s = .error (.alignment (.imm imm)) := by
  simp only [checkLs, if_pos h]

theorem checkLs_misaligned_ea {rs : Reg} {imm : Imm} {s : State} (h : imm.toNat % 4 = 0)
    (he : effectiveAddress rs imm s % 4 ≠ 0) :
    checkLs rs imm s = .error (.alignment (.ea (effectiveAddress rs imm s))) := by
  simp only [checkLs, if_neg (not_not.2 h), if_pos he]

theorem checkLs_outOfBounds {rs : Reg} {imm : Imm} {s : State} (h : imm.toNat % 4 = 0)
    (he : effectiveAddress rs imm s % 4 = 0)
    (hb : effectiveAddress rs imm s < 0 ∨ 4 * (s.cfg.memWords : Int) ≤ effectiveAddress rs imm s) :
    checkLs rs imm s = .error (.outOfBounds (effectiveAddress rs imm s)) := by
  have hidx : effectiveAddress rs imm s / 4 < 0 ∨ effectiveAddress rs imm s / 4 ≥ (s.cfg.memWords : Int) := by omega
  simp only [checkLs, if_neg (not_not.2 h), if_neg (not_not.2 he), if_pos hidx]

/-- A failed check is what lw and sw report. -/
theorem exec_reports_of_checkLs {rt rs : Reg} {imm : Imm} {i : Instr} {s : State} {e : Error}
    (hi : i = .lw rt rs imm ∨ i = .sw rt rs imm) (h : checkLs rs imm s = .error e) :
    ∃ t, exec i s = .next t ∧ Reports s t e := by
  rcases hi with rfl | rfl
  · exact ⟨_, execLw_of_error h, rfl⟩
  · exact ⟨_, execSw_of_error h, rfl⟩

/-- Settles O11: each clause is one failure of the checks. -/
theorem loadAndStoreErrors : Obligations.LoadAndStoreErrors := by
  intro s rt rs imm i hi
  exact ⟨fun h => exec_reports_of_checkLs hi (checkLs_misaligned_imm h),
    fun h he => exec_reports_of_checkLs hi (checkLs_misaligned_ea h he),
    fun h he hb => exec_reports_of_checkLs hi (checkLs_outOfBounds h he hb)⟩

/-- A sw that reports nothing has passed its checks. -/
theorem checkLs_ok_of_execSw {rt rs : Reg} {imm : Imm} {s t : State} (h : execSw rt rs imm s = .next t)
    (ho : t.out = s.out) : ∃ idx, checkLs rs imm s = .ok idx ∧ t = (s.writeCell idx (s.reg rt)).advancePc := by
  cases hc : checkLs rs imm s with
  | error e => rw [execSw_of_error hc] at h; cases h; simp at ho
  | ok idx => rw [execSw_of_ok hc] at h; cases h; exact ⟨idx, rfl, rfl⟩

/-- Settles O12: the load's checks pass on the cell the store wrote. -/
theorem storeThenLoadGivesTheWordBack : Obligations.StoreThenLoadGivesTheWordBack := by
  intro s t rt rs rd rs' imm imm' hm h ho himm hea
  obtain ⟨idx, hc, rfl⟩ := checkLs_ok_of_execSw h ho
  obtain ⟨_, heq, hidx⟩ := (checkLs_ok_iff rs imm s idx).1 hc
  have hc' := (checkLs_ok_iff rs' imm' (s.writeCell idx (s.reg rt)).advancePc idx).2 ⟨himm, hea.trans heq, hidx⟩
  refine ⟨_, execLw_of_ok hc', ?_, by simp⟩
  rw [State.advancePc_reg, State.writeReg_reg_self, State.advancePc_readCell, s.writeCell_readCell idx idx _ hm,
    if_pos rfl]

/-! ### The byte order (20_memory.md section 2) -/

/-- The state with another STR_BYTE_ORDER. -/
def State.withByteOrder (s : State) (order : ByteOrder) : State :=
  { s with cfg := { s.cfg with strByteOrder := order } }

theorem State.withByteOrder_writeReg (s : State) (order : ByteOrder) (r : Reg) (v : Word) :
    (s.withByteOrder order).writeReg r v = (s.writeReg r v).withByteOrder order := by
  unfold State.writeReg; split <;> rfl

/-- A register result commutes with a change of the byte order. -/
theorem writeReg_advancePc_withByteOrder (s : State) (order : ByteOrder) (r : Reg) (v : Word) :
    (.next ((s.withByteOrder order).writeReg r v).advancePc : Result) =
      mapNext (·.withByteOrder order) (.next (s.writeReg r v).advancePc) := by
  rw [State.withByteOrder_writeReg]; rfl

/-- No handler but that of syscall sees the byte order. -/
theorem exec_withByteOrder {i : Instr} (hi : ∀ rs rt rd shamt, i ≠ .syscall rs rt rd shamt) (s : State)
    (order : ByteOrder) : exec i (s.withByteOrder order) = mapNext (·.withByteOrder order) (exec i s) := by
  have hcheck (rs : Reg) (imm : Imm) : checkLs rs imm (s.withByteOrder order) = checkLs rs imm s := rfl
  cases i with
  | add rd | sub rd | and rd | or rd | xor rd | sll rd | srl rd =>
    exact writeReg_advancePc_withByteOrder s order rd _
  | syscall rs rt rd shamt => exact absurd rfl (hi rs rt rd shamt)
  | lw rt rs imm =>
    simp only [exec, execLw, hcheck]
    cases checkLs rs imm s with
    | error e => rfl
    | ok idx => exact writeReg_advancePc_withByteOrder s order rt (s.readCell idx)
  | sw rt rs imm =>
    simp only [exec, execSw, hcheck]
    cases checkLs rs imm s <;> rfl
  | beq rs rt imm =>
    by_cases h : s.reg rs = s.reg rt
    · simp only [exec, execBeq_taken imm h, execBeq_taken (s := s.withByteOrder order) imm h]; rfl
    · simp only [exec, execBeq_notTaken imm h, execBeq_notTaken (s := s.withByteOrder order) imm h]; rfl
  | j => rfl

/-- Settles O13: the handler's result commutes with the change of the byte order. -/
theorem onlySyscallSeesTheByteOrder : Obligations.OnlySyscallSeesTheByteOrder := by
  intro i s t order hi h
  have hc := exec_withByteOrder hi s order
  rw [h] at hc
  exact hc

end Sys2Proof.Machine

/-! ## What a handler and a step change, and what they leave alone -/

namespace Sys2Proof.Machine

/-! ### The frame of an instruction (10_state.md section 2) -/

theorem Effect.reg_of_not_writesReg {i : Instr} {s t : State} (h : Effect i s t) {r : Reg} (hr : ¬ writesReg i s r) :
    t.reg r = s.reg r := by
  cases h with
  | reported | malformed | ended | store | control | output | exit => rfl
  | register rd v hw => exact s.writeReg_reg_of_ne v fun heq => hr (heq ▸ hw)
  | readInt v rest _ hw => exact (s.setInput rest).writeReg_reg_of_ne (wrap32 v) fun heq => hr (heq ▸ hw)

/-- Only a store changes memory, and it changes one cell. -/
theorem Effect.sameMemory_or_store {i : Instr} {s t : State} (h : Effect i s t) :
    SameMemory s t ∨ ∃ rt rs imm, i = .sw rt rs imm ∧ ∀ a : Nat,
      ((a : Int) < effectiveAddress rs imm s ∨ effectiveAddress rs imm s + 4 ≤ a) → t.memByte a = s.memByte a := by
  cases h with
  | reported | malformed | ended | control | output | exit => exact .inl fun _ => rfl
  | register rd v => exact .inl (s.writeReg_memByte rd v)
  | readInt v rest => exact .inl ((s.setInput rest).writeReg_memByte 2 (wrap32 v))
  | store rt rs imm idx hi hc =>
    obtain ⟨_, hea, _⟩ := (checkLs_ok_iff rs imm s idx).1 hc
    exact .inr ⟨rt, rs, imm, hi, fun a ha => memByte_writeCell_of_outside s _ hea ha⟩

/-- Settles O26, by the inversion of `exec`. -/
theorem instructionsWriteOnlyTheirDestinations : Obligations.InstructionsWriteOnlyTheirDestinations := by
  intro i s t h
  have he := exec_effect h
  refine ⟨fun r hr => he.reg_of_not_writesReg hr, fun hi => ?_, fun rt rs imm hi a ha => ?_⟩
  · rcases he.sameMemory_or_store with hm | ⟨rt, rs, imm, hsw, _⟩
    · exact hm
    · exact absurd hsw (hi rt rs imm)
  · rcases he.sameMemory_or_store with hm | ⟨rt', rs', imm', hsw, hm⟩
    · exact hm a
    · cases hi.symm.trans hsw
      exact hm a ha

/-! ### The next-pc mux (42_control.md section 1) -/

/-- A handler that reports no error and does not end the session has not failed. -/
theorem not_failed {s t : State} (ho : AddsNoErr s t) (he : t.ended = s.ended) : ¬ Failed s t := by
  rintro (⟨e, h⟩ | h)
  · exact ho.err_notMem h (List.mem_singleton_self _)
  · exact h he

/-- A handler either fails and holds the pc, or completes and follows the mux. -/
theorem Effect.hold_or_next {i : Instr} {s t : State} (h : Effect i s t) (hs : s.ended = none) :
    (Failed s t ∧ t.machine.pc = s.machine.pc) ∨ (¬ Failed s t ∧ t.machine.pc = nextPc i s) := by
  cases h with
  | reported | malformed => exact .inl ⟨.inl ⟨_, rfl⟩, rfl⟩
  | ended => exact .inl ⟨.inr (by simp [hs]), rfl⟩
  | register _ _ _ hp | readInt _ _ _ _ hp =>
    exact .inr ⟨not_failed (addsNoErr_of_out_eq (by simp)) (by simp), by simp [hp]⟩
  | store _ _ _ _ hi => exact .inr ⟨not_failed (addsNoErr_of_out_eq rfl) rfl, by subst hi; rfl⟩
  | control => exact .inr ⟨not_failed (addsNoErr_of_out_eq rfl) rfl, rfl⟩
  | output e he hp => exact .inr ⟨not_failed ⟨[e], rfl, by simpa using he⟩ rfl, hp.symm⟩
  | exit _ _ _ _ _ _ hp => exact .inr ⟨not_failed (addsNoErr_of_out_eq rfl) rfl, hp.symm⟩

/-- Settles O16: by the mux, and since no handler both fails and completes. -/
theorem nextPcMux : Obligations.NextPcMux := by
  intro i s t hs h
  rcases (exec_effect h).hold_or_next hs with ⟨hf, hp⟩ | ⟨hf, hp⟩
  · exact ⟨fun _ => hp, fun hn => absurd hf hn⟩
  · exact ⟨fun hf' => absurd hf' hf, fun _ => hp⟩

/-! ### The errors a step reports (60_exceptions.md sections 1 and 2) -/

/-- Events were added of which the last is the one error, and MachineState is as before. -/
def EndsInError (s t : State) : Prop :=
  ∃ es e, t.out = s.out ++ es ++ [.err e] ∧ (∀ d ∈ es, d.isErr = false) ∧ t.machine = s.machine

theorem Effect.addsNoErr_or_endsInError {i : Instr} {s t : State} (h : Effect i s t) :
    AddsNoErr s t ∨ EndsInError s t := by
  cases h with
  | reported e => exact .inr ⟨[], e, by simp, by simp, rfl⟩
  | malformed text rest => exact .inr ⟨[], .inputFormat (.notInteger text), by simp, by simp, rfl⟩
  | output e he => exact .inl ⟨[e], rfl, by simpa using he⟩
  | register | readInt => exact .inl (addsNoErr_of_out_eq (by simp))
  | ended | store | control | exit => exact .inl (addsNoErr_of_out_eq rfl)

theorem Turn.addsNoErr_or_endsInError {s t : State} (h : Turn s t) : AddsNoErr s t ∨ EndsInError s t := by
  cases h with
  | streamEnd => exact .inl (addsNoErr_of_out_eq rfl)
  | badLine text rest info => exact .inr ⟨[], .inputFormat info, by simp, by simp, rfl⟩
  | rejected text rest w e => exact .inr ⟨_, e, rfl, decode_events_noErr s.cfg.aluExt w, rfl⟩
  | ran text rest w i t _ _ _ hx =>
    have hd := decode_events_noErr s.cfg.aluExt w
    rcases (exec_effect hx).addsNoErr_or_endsInError with hn | ⟨es, e, ho, hn, hm⟩
    · exact .inl (.trans ⟨_, rfl, hd⟩ hn)
    · refine .inr ⟨(decode s.cfg.aluExt w).events ++ es, e, by rw [ho]; simp, ?_, hm⟩
      exact List.forall_mem_append.2 ⟨hd, hn⟩

theorem filter_isErr_eq_nil {es : List Event} (h : ∀ e ∈ es, e.isErr = false) : es.filter Event.isErr = [] :=
  List.filter_eq_nil_iff.2 fun e he => by simp [h e he]

/-- Settles O34: a turn adds no error, or one at the end with MachineState as it was. -/
theorem stepReportsAtMostOneError : Obligations.StepReportsAtMostOneError := by
  intro s t h
  obtain ⟨_, hturn⟩ := step_turn h
  rcases hturn.addsNoErr_or_endsInError with ⟨es, ho, hn⟩ | ⟨es, e, ho, hn, hm⟩
  · exact ⟨es, ho, by simp [filter_isErr_eq_nil hn], fun e he => hn e (List.mem_of_mem_dropLast he), fun _ => hn⟩
  · refine ⟨es ++ [.err e], by rw [ho, List.append_assoc], ?_, by simpa using hn, fun hne => absurd hm hne⟩
    rw [List.filter_append, filter_isErr_eq_nil hn]
    exact List.length_filter_le Event.isErr [.err e]

/-! ### Parameters, output and input (10_state.md sections 5 and 6) -/

theorem splitLine_suffix {cs text rest : List Char} (h : splitLine cs = (text, some rest)) : rest <:+ cs := by
  induction cs generalizing text with
  | nil => simp [splitLine] at h
  | cons c cs ih =>
    unfold splitLine at h
    split_ifs at h with hc
    · obtain ⟨_, hrest⟩ := Prod.mk.inj h
      exact Option.some.inj hrest ▸ List.suffix_cons c cs
    · obtain ⟨_, hrest⟩ := Prod.mk.inj h
      exact (ih (Prod.ext rfl hrest)).trans (List.suffix_cons c cs)

/-- `rest` is what is left of `inp` after some characters were read. -/
def Input.Leaves (inp rest : Input) : Prop := rest.chars <:+ inp.chars ∧ rest.tail = inp.tail

theorem readLine_leaves {inp rest : Input} {text : List Char} (h : readLine inp = .line text rest) :
    inp.Leaves rest := by
  obtain ⟨chars, tail⟩ := inp
  rcases hs : splitLine chars with ⟨text', _ | rest'⟩
  · cases tail with
    | failure => simp [readLine, hs] at h
    | endOfInput =>
      cases text' with
      | nil => simp [readLine, hs] at h
      | cons c cs =>
        simp only [readLine, hs] at h
        cases h
        exact ⟨List.nil_suffix, rfl⟩
  · simp only [readLine, hs] at h
    cases h
    exact ⟨splitLine_suffix hs, rfl⟩

/-! The answer to a request for an integer, from the next line -/

theorem requestInt_of_int {inp rest : Input} {text : List Char} {v : Int} (hl : readLine inp = .line text rest)
    (hp : parseInt text = some v) : requestInt inp = .int v rest := by
  simp only [requestInt, hl, hp]

theorem requestInt_of_malformed {inp rest : Input} {text : List Char} (hl : readLine inp = .line text rest)
    (hp : parseInt text = none) : requestInt inp = .malformed text rest := by
  simp only [requestInt, hl, hp]

theorem requestInt_of_endOfInput {inp : Input} (h : readLine inp = .endOfInput) : requestInt inp = .endOfInput := by
  simp only [requestInt, h]

theorem requestInt_of_failure {inp : Input} (h : readLine inp = .failure) : requestInt inp = .failure := by
  simp only [requestInt, h]

/-- An answer that leaves some input, an integer or not, was read from one line. -/
theorem requestInt_leaves {inp rest : Input}
    (h : (∃ v, requestInt inp = .int v rest) ∨ ∃ text, requestInt inp = .malformed text rest) : inp.Leaves rest := by
  cases hl : readLine inp with
  | endOfInput => rw [requestInt_of_endOfInput hl] at h; simp at h
  | failure => rw [requestInt_of_failure hl] at h; simp at h
  | line text rest' =>
    obtain rfl : rest' = rest := by
      cases hp : parseInt text with
      | none => simpa [requestInt_of_malformed hl hp] using h
      | some v => simpa [requestInt_of_int hl hp] using h
    exact readLine_leaves hl

/-- `t` is a state of the session of `s`, later on: the same parameters, no output taken back, no input put back. -/
structure Later (s t : State) : Prop where
  cfg   : t.cfg = s.cfg
  out   : s.out <+: t.out
  input : s.input.Leaves t.input

theorem Input.Leaves.refl (inp : Input) : inp.Leaves inp := ⟨List.suffix_rfl, rfl⟩

theorem Input.Leaves.trans {a b c : Input} (hab : a.Leaves b) (hbc : b.Leaves c) : a.Leaves c :=
  ⟨hbc.1.trans hab.1, hbc.2.trans hab.2⟩

theorem Later.trans {s t u : State} (hst : Later s t) (htu : Later t u) : Later s u :=
  ⟨htu.cfg.trans hst.cfg, hst.out.trans htu.out, hst.input.trans htu.input⟩

theorem later_emit (s : State) (es : List Event) : Later s (s.emit es) :=
  ⟨rfl, List.prefix_append s.out es, .refl _⟩

theorem later_setInput {s : State} {rest : Input} (h : s.input.Leaves rest) : Later s (s.setInput rest) :=
  ⟨rfl, List.prefix_rfl, h⟩

/-- A change of MachineState or of the session's end leaves parameters, output and input alone. -/
theorem later_of_eq {s t : State} (hc : t.cfg = s.cfg) (ho : t.out = s.out) (hi : t.input = s.input) : Later s t :=
  ⟨hc, ho ▸ List.prefix_rfl, hi ▸ .refl _⟩

theorem Effect.later {i : Instr} {s t : State} (h : Effect i s t) : Later s t := by
  cases h with
  | reported e => exact later_emit s _
  | malformed text rest hr => exact (later_setInput (requestInt_leaves (.inr ⟨text, hr⟩))).trans (later_emit _ _)
  | ended | store | control | exit => exact later_of_eq rfl rfl rfl
  | register rd v => exact later_of_eq (s.writeReg_cfg rd v) (s.writeReg_out rd v) (s.writeReg_input rd v)
  | output e => exact (later_emit s [e]).trans (later_of_eq rfl rfl rfl)
  | readInt v rest hr =>
    refine (later_setInput (requestInt_leaves (.inl ⟨v, hr⟩))).trans (later_of_eq ?_ ?_ ?_) <;> simp

theorem Turn.later {s t : State} (h : Turn s t) : Later s t := by
  cases h with
  | streamEnd => exact later_of_eq rfl rfl rfl
  | badLine text rest info hl => exact (later_setInput (readLine_leaves hl)).trans (later_emit _ _)
  | rejected text rest w e hl =>
    exact ((later_setInput (readLine_leaves hl)).trans (later_emit _ _)).trans (later_emit _ _)
  | ran text rest w i t hl _ _ hx =>
    exact ((later_setInput (readLine_leaves hl)).trans (later_emit _ _)).trans (exec_effect hx).later

/-- Settles O35: every turn leads to a later state of the same session. -/
theorem stepKeepsParametersOutputAndInputOrder : Obligations.StepKeepsParametersOutputAndInputOrder := by
  intro s t h
  obtain ⟨hc, ho, hchars, htail⟩ := (step_turn h).2.later
  exact ⟨hc, ho, hchars, htail⟩

/-! ## Start, run and end of a session -/

/-- Settles O28: the step issues the word, and decode gives the instruction. -/
theorem stepRunsTheDecodedInstruction : Obligations.StepRunsTheDecodedInstruction := by
  intro s text rest w es i hh he hl hp hd
  rw [step_of_word hh he hl hp]
  simp only [issue, State.setInput_cfg, hd]
  rfl

theorem stopReason_of_ended {s : State} (hh : s.machine.halted = false) (he : s.ended ≠ none) :
    s.stopReason = some .sessionEnded := by
  simp [State.stopReason, hh, Option.isSome_iff_ne_none.2 he]

/-- A running session whose input has no line, or fails, ends so. -/
theorem step_of_streamEnd {s : State} {e : SessionEnd} (hh : s.machine.halted = false) (he : s.ended = none)
    (hl : (readLine s.input = .endOfInput ∧ e = .endOfInput) ∨ (readLine s.input = .failure ∧ e = .failure)) :
    step s = .next (s.endSession e) := by
  rcases hl with ⟨hl, rfl⟩ | ⟨hl, rfl⟩ <;> simp only [step, fetch, (stopReason_none_iff s).2 ⟨hh, he⟩, hl]

/-- Settles O31: the step of a running session, and the reason an ended one has to stop. -/
theorem streamEndEndsTheSession : Obligations.StreamEndEndsTheSession :=
  ⟨fun _ hh he => ⟨fun hl => step_of_streamEnd hh he (.inl ⟨hl, rfl⟩),
      fun hl => step_of_streamEnd hh he (.inr ⟨hl, rfl⟩)⟩,
    fun _ hh he => step_of_stopReason (stopReason_of_ended hh he)⟩

theorem Memory.wf_nil : Memory.wf [] := ⟨List.Pairwise.nil, fun _ hc => absurd hc List.not_mem_nil⟩

theorem launch_inv {cfg : Config} {l : Launch} (inp : Input) (hc : cfg.wf) (hl : l.wf cfg) :
    (State.launch cfg l inp).Inv where
  cfg := hc
  zeroCell := by simp [State.launch]
  memory := Memory.wf_placeWords l.initMem 0 [] Memory.wf_nil
  extent c h := by
    obtain ⟨_, hlen⟩ := hl
    rcases Memory.mem_placeWords l.initMem 0 [] c h with h | h
    · cases h
    · show c.1 < 4 * cfg.memWords
      omega
  aligned := hl.1

theorem launch_reg (cfg : Config) (l : Launch) (inp : Input) (r : Reg) :
    (State.launch cfg l inp).reg r = if r = 0 then 0 else l.initRegs[r] := by
  by_cases h : r = 0
  · simp [h]
  · have hv : 0 ≠ r.val := fun e => h (Fin.ext e.symm)
    simp [State.reg, State.launch, h, hv]

theorem launch_readCell (cfg : Config) (l : Launch) (inp : Input) (i : Nat) :
    (State.launch cfg l inp).readCell i = l.initMem.getD i 0 := by
  simp [State.readCell, State.launch, Memory.readCell_placeWords l.initMem 0 [] i Memory.wf_nil]

/-- Settles O38, field by field. -/
theorem launchGivesTheResetState : Obligations.LaunchGivesTheResetState := by
  intro cfg l inp hc hl
  exact ⟨launch_inv inp hc hl, rfl, launch_reg cfg l inp, fun i _ => launch_readCell cfg l inp i, rfl, rfl, rfl, rfl,
    rfl⟩

/-- Settles O37: the reference launch is a legal one. -/
theorem resetIsTheReferenceLaunch : Obligations.ResetIsTheReferenceLaunch := by
  have h : State.reset = State.launch Config.reference Launch.reference ⟨[], .endOfInput⟩ := by decide
  refine ⟨h, ?_⟩
  rw [h]
  exact launch_inv _ (by decide) (by decide)

end Sys2Proof.Machine

/-! ## syscall (43_syscall.md) -/

namespace Sys2Proof.Machine

/-- Settles O17: service 1 is one event and the advance of the pc. -/
theorem printIntegerCompletes : Obligations.PrintIntegerCompletes := fun s _ _ _ _ h =>
  ⟨_, execSyscall_printInt h, emit_advancePc s _⟩

/-! ### The string of service 4 -/

theorem extractLsb'_eq_ofNat (w : Word) (lo n : Nat) : w.extractLsb' lo n = BitVec.ofNat n (u32 w / 2 ^ lo) := by
  rw [← Nat.shiftRight_eq_div_pow]; rfl

/-- Settles O20: a lane is eight bits of the cell. -/
theorem stringBytesFollowTheByteOrder : Obligations.StringBytesFollowTheByteOrder := by
  intro s a
  rw [State.memByte, Memory.memByte]
  cases s.cfg.strByteOrder <;> exact extractLsb'_eq_ofNat _ _ _

/-- The scan stops at the first zero byte and gives the bytes before it. -/
theorem scanString_of_zero {s : State} {n room a : Nat} (hroom : n < room) (hbytes : ∀ k, k < n → s.memByte (a + k) ≠ 0)
    (hzero : s.memByte (a + n) = 0) :
    scanString s room a = some ((List.range n).map fun k => s.memByte (a + k)) := by
  induction n generalizing room a with
  | zero =>
    obtain ⟨room, rfl⟩ := Nat.exists_eq_add_of_lt hroom
    simpa [scanString] using hzero
  | succ n ih =>
    obtain ⟨room, rfl⟩ : ∃ r, room = r + 1 := ⟨room - 1, by omega⟩
    have hshift (k : Nat) : a + 1 + k = a + (k + 1) := by omega
    have hne : s.memByte a ≠ 0 := hbytes 0 (by omega)
    have hrest := ih (a := a + 1) (room := room) (by omega)
      (fun k hk => hshift k ▸ hbytes (k + 1) (by omega)) (hshift n ▸ hzero)
    rw [scanString, if_neg hne, hrest, List.range_succ_eq_map]
    simp [hshift, Function.comp_def]

/-- The scan runs out of room when it meets no zero byte. -/
theorem scanString_of_ne_zero {s : State} {room a : Nat} (h : ∀ k, k < room → s.memByte (a + k) ≠ 0) :
    scanString s room a = none := by
  induction room generalizing a with
  | zero => rfl
  | succ room ih =>
    have hne : s.memByte a ≠ 0 := h 0 (by omega)
    have hrest : scanString s room (a + 1) = none :=
      ih fun k hk => by rw [show a + 1 + k = a + (k + 1) by omega]; exact h (k + 1) (by omega)
    rw [scanString, if_neg hne, hrest]; rfl

theorem stringAt_of_neg {s : State} {a : Int} (h : a < 0) : stringAt s a = none := if_pos h

theorem stringAt_natCast (s : State) (a : Nat) : stringAt s a = scanString s (4 * s.cfg.memWords - a) a := by
  rw [stringAt, if_neg (by omega), Int.toNat_natCast]

theorem servicePrintString_of_some {a0 : Word} {s : State} {bytes : List Byte}
    (h : stringAt s (s32 a0) = some bytes) : servicePrintString a0 s = .next (s.emit [.outStr bytes]).advancePc := by
  simp only [servicePrintString, h]

theorem servicePrintString_of_none {a0 : Word} {s : State} (h : stringAt s (s32 a0) = none) :
    servicePrintString a0 s = raise (.outOfBounds (s32 a0)) s := by
  simp only [servicePrintString, h]

/-- Settles O18: the scan finds the first zero byte before it runs out of room. -/
theorem printStringCompletes : Obligations.PrintStringCompletes := by
  intro s rs rt rd shamt a n hcode haddr hbytes hzero hin
  have hstr : stringAt s (s32 (s.reg 4)) = some ((List.range n).map fun k => s.memByte (a + k)) := by
    rw [haddr, stringAt_natCast]
    exact scanString_of_zero (by omega) hbytes hzero
  exact ⟨_, (execSyscall_printString hcode).trans (servicePrintString_of_some hstr), emit_advancePc s _⟩

/-- Settles O19: below 0 there is no string, and from an address in the memory the scan runs out of room. -/
theorem printStringOutOfBounds : Obligations.PrintStringOutOfBounds := by
  intro s rs rt rd shamt hcode h
  have hstr : stringAt s (s32 (s.reg 4)) = none := by
    rcases Int.lt_or_le (s32 (s.reg 4)) 0 with hneg | hnonneg
    · exact stringAt_of_neg hneg
    · obtain ⟨a, ha⟩ := Int.eq_ofNat_of_zero_le hnonneg
      rw [ha] at h ⊢
      rw [stringAt_natCast]
      refine scanString_of_ne_zero fun k hk => ?_
      rcases h with h | h
      · omega
      · exact h (a + k) (by omega) (by omega)
  exact ⟨_, (execSyscall_printString hcode).trans (servicePrintString_of_none hstr), rfl⟩

/-! ### The integer of service 5 -/

theorem serviceReadInt_of_int {s : State} {v : Int} {rest : Input} (h : requestInt s.input = .int v rest) :
    serviceReadInt s = .next ((s.setInput rest).writeReg 2 (wrap32 v)).advancePc := by
  simp only [serviceReadInt, h]

theorem serviceReadInt_of_malformed {s : State} {text : List Char} {rest : Input}
    (h : requestInt s.input = .malformed text rest) :
    serviceReadInt s = raise (.inputFormat (.notInteger text)) (s.setInput rest) := by
  simp only [serviceReadInt, h]

theorem serviceReadInt_of_endOfInput {s : State} (h : requestInt s.input = .endOfInput) :
    serviceReadInt s = .next (s.endSession .endOfInput) := by
  simp only [serviceReadInt, h]

theorem serviceReadInt_of_failure {s : State} (h : requestInt s.input = .failure) :
    serviceReadInt s = .next (s.endSession .failure) := by
  simp only [serviceReadInt, h]

/-- The integer of a line is what is between its blanks, if that is a signed 32-bit one (D28). -/
theorem parseInt_eq_some_iff (text : List Char) (v : Int) :
    parseInt text = some v ↔ parseSigned (stripBlanks text) = some v ∧ -(2 ^ 31) ≤ v ∧ v < 2 ^ 31 := by
  unfold parseInt
  cases parseSigned (stripBlanks text) with
  | none => simp
  | some n =>
    simp only [Option.ite_none_right_eq_some, Option.some.injEq]
    exact ⟨fun ⟨hn, h⟩ => ⟨h, h ▸ hn⟩, fun ⟨h, hn⟩ => ⟨h ▸ hn, h⟩⟩

/-- Settles O21: the integer is in the range of a register, so x[2] reads it back. -/
theorem readIntegerCompletes : Obligations.ReadIntegerCompletes := by
  intro s rs rt rd shamt text rest v hcode hl hp
  obtain ⟨_, hlo, hhi⟩ := (parseInt_eq_some_iff text v).1 hp
  refine ⟨_, (execSyscall_readInt hcode).trans (serviceReadInt_of_int (requestInt_of_int hl hp)), ?_, ?_, ?_,
    by simp, by simp, by simp, by simp, by simp, by simp⟩
  · rw [State.advancePc_reg, State.writeReg_reg_self, if_neg (by decide)]
    exact BitVec.toInt_ofInt_eq_self (by decide) hlo hhi
  · exact fun r hr => (s.setInput rest).writeReg_reg_of_ne (wrap32 v) hr
  · exact (s.setInput rest).writeReg_memByte 2 (wrap32 v)

/-- Settles O22, answer by answer of the host. -/
theorem readIntegerWithoutAnInteger : Obligations.ReadIntegerWithoutAnInteger := by
  intro s rs rt rd shamt hcode
  refine ⟨fun text rest hl hp => ⟨_, (execSyscall_readInt hcode).trans
      (serviceReadInt_of_malformed (requestInt_of_malformed hl hp)), rfl⟩, fun hl => ?_, fun hl => ?_⟩
  · exact (execSyscall_readInt hcode).trans (serviceReadInt_of_endOfInput (requestInt_of_endOfInput hl))
  · exact (execSyscall_readInt hcode).trans (serviceReadInt_of_failure (requestInt_of_failure hl))

/-! ### Exit and unknown codes -/

/-- Settles O23: service 10 is the flag and the advance of the pc. -/
theorem exitCompletes : Obligations.ExitCompletes := fun _ _ _ _ _ h =>
  ⟨_, execSyscall_exit h, rfl, rfl, fun _ => rfl, fun _ => rfl, rfl, rfl, rfl, rfl⟩

/-- Settles O24: a code of no service is raised. -/
theorem unknownServiceIsReported : Obligations.UnknownServiceIsReported := fun _ _ _ _ _ h1 h4 h5 h10 =>
  ⟨_, execSyscall_unsupported h1 h4 h5 h10, rfl⟩

end Sys2Proof.Machine

/-! ## The host's ports (60_exceptions.md section 6) -/

namespace Sys2Proof.Machine

/-! ### Lines -/

theorem splitLine_append_lineFeed {text : List Char} (rest : List Char) (h : '\n' ∉ text) :
    splitLine (text ++ '\n' :: rest) = (text, some rest) := by
  induction text with
  | nil => simp [splitLine]
  | cons c cs ih =>
    obtain ⟨hc, hcs⟩ := List.ne_and_not_mem_of_not_mem_cons h
    simp [splitLine, hc.symm, ih hcs]

theorem splitLine_of_notMem {text : List Char} (h : '\n' ∉ text) : splitLine text = (text, none) := by
  induction text with
  | nil => rfl
  | cons c cs ih =>
    obtain ⟨hc, hcs⟩ := List.ne_and_not_mem_of_not_mem_cons h
    simp [splitLine, hc.symm, ih hcs]

theorem stripCr_of_getLast?_ne : ∀ {text : List Char}, text.getLast? ≠ some '\r' → stripCr text = text
  | [], _ => rfl
  | [c], h => if_neg fun hc => h (congrArg some hc)
  | c :: d :: cs, h => by rw [stripCr, stripCr_of_getLast?_ne (by simpa using h)]

theorem stripCr_append_cr : ∀ text : List Char, stripCr (text ++ ['\r']) = text
  | [] => rfl
  | [_] => rfl
  | c :: d :: cs => congrArg (c :: ·) (stripCr_append_cr (d :: cs))

theorem readLine_append_lineFeed {text : List Char} (rest : List Char) (tail : StreamTail) (h : '\n' ∉ text) :
    readLine ⟨text ++ '\n' :: rest, tail⟩ = .line (stripCr text) ⟨rest, tail⟩ := by
  simp only [readLine, splitLine_append_lineFeed rest h]

/-- Settles O44: how the text splits at its first line feed, and what is stripped before it. -/
theorem linesEndAtLineFeeds : Obligations.LinesEndAtLineFeeds := by
  intro text rest tail h
  have hsplit := splitLine_of_notMem h
  refine ⟨fun hl => ?_, ?_, fun hne => ?_, rfl, ?_⟩
  · rw [readLine_append_lineFeed rest tail h, stripCr_of_getLast?_ne hl]
  · have hcr : '\n' ∉ text ++ ['\r'] := by simpa using h
    simpa [stripCr_append_cr] using readLine_append_lineFeed rest tail hcr
  · obtain ⟨c, cs, rfl⟩ := List.exists_cons_of_ne_nil hne
    simp only [readLine, hsplit]
  · simp only [readLine, hsplit]

/-! ### A bad hex line -/

theorem firstBad_append {before after : List Char} {c : Char} (position : Nat)
    (hb : ∀ d ∈ before, (hexDigit? d).isSome) (hc : hexDigit? c = none) :
    firstBad position (before ++ c :: after) = some (c, position + before.length) := by
  induction before generalizing position with
  | nil => simp [firstBad, hc]
  | cons b bs ih =>
    obtain ⟨hb', hbs⟩ := List.forall_mem_cons.1 hb
    have hnext : position + 1 + bs.length = position + (b :: bs).length := by rw [List.length_cons]; omega
    rw [List.cons_append, firstBad, if_neg (by simpa using Option.isSome_iff_ne_none.1 hb'), ih _ hbs, hnext]

/-- Settles O42: the length is checked first, then the characters in order. -/
theorem badHexLineIsIdentified : Obligations.BadHexLineIsIdentified := by
  refine fun line => ⟨fun h => if_pos h, fun h c before after hline hb hc => ?_⟩
  have hbad : firstBad 0 line = some (c, before.length) := by rw [hline, firstBad_append 0 hb hc, Nat.zero_add]
  simp only [parseHex, if_neg (not_not.2 h), hbad]

/-! ### The hex round trip -/

theorem hexDigit?_hexChar : ∀ d < 16, hexDigit? (hexChar d) = some d := by decide

theorem hexChar_isHexDigit {w : Word} {c : Char} (h : c ∈ formatHex w) : ∃ d, d < 16 ∧ c = hexChar d := by
  obtain ⟨i, _, rfl⟩ := List.mem_map.1 h
  exact ⟨_, Nat.mod_lt _ (by decide), rfl⟩

/-- The digits of `v` from place `n - 1` down, parsed, are `v` modulo 16^n. -/
theorem hexValue_map_hexChar (v n : Nat) :
    hexValue ((List.range n).reverse.map (fun i => hexChar (v / 16 ^ i % 16))) = v % 16 ^ n := by
  induction n with
  | zero => simp [hexValue, Nat.mod_one]
  | succ n ih =>
    have hd : hexDigit? (hexChar (v / 16 ^ n % 16)) = some (v / 16 ^ n % 16) :=
      hexDigit?_hexChar _ (Nat.mod_lt _ (by decide))
    rw [List.range_succ, List.reverse_append, List.reverse_singleton, List.singleton_append, List.map_cons, hexValue, hd,
      ih, List.length_map, List.length_reverse, List.length_range, Nat.mod_pow_succ, Option.getD_some]
    ring

theorem formatHex_eq_map (w : Word) :
    formatHex w = (List.range 8).reverse.map (fun i => hexChar (w.toNat / 16 ^ i % 16)) := rfl

theorem hexValue_formatHex (w : Word) : hexValue (formatHex w) = w.toNat := by
  rw [formatHex_eq_map, hexValue_map_hexChar]
  exact Nat.mod_eq_of_lt w.isLt

theorem parseHex_formatHex (w : Word) : parseHex (formatHex w) = .ok w := by
  refine (parseHex_eq_ok_iff _ _).2 ⟨rfl, fun c hc => ?_, (hexValue_formatHex w).symm⟩
  obtain ⟨d, hd, rfl⟩ := hexChar_isHexDigit hc
  rw [hexDigit?_hexChar d hd]; rfl

/-- The formatter gives a hex digit back up to the case of its letters. -/
theorem toLower_hexChar {c : Char} (h : (hexDigit? c).isSome) :
    (hexChar ((hexDigit? c).getD 0)).toLower = c.toLower := by
  have hsmall : ∀ n < 128, (hexDigit? (Char.ofNat n)).isSome →
      (hexChar ((hexDigit? (Char.ofNat n)).getD 0)).toLower = (Char.ofNat n).toLower := by decide
  have hc : c.toNat < 128 := by
    have hle (a b : Char) : a ≤ b ↔ a.toNat ≤ b.toNat := Iff.rfl
    have hranges := (hexDigit?_isSome_iff c).1 h
    simp only [hle, Char.reduceToNat] at hranges
    omega
  simpa using hsmall c.toNat hc (by simpa using h)

/-- A digit above `n` places, each base-16, is seen at place `n` and at no place below. -/
theorem hexDigit_at {d n v : Nat} (hd : d < 16) (hv : v < 16 ^ n) :
    (d * 16 ^ n + v) / 16 ^ n % 16 = d ∧ ∀ i < n, (d * 16 ^ n + v) / 16 ^ i % 16 = v / 16 ^ i % 16 := by
  refine ⟨?_, fun i hi => ?_⟩
  · rw [Nat.mul_comm, Nat.mul_add_div (by positivity), Nat.div_eq_of_lt hv, Nat.add_zero, Nat.mod_eq_of_lt hd]
  · obtain ⟨k, rfl⟩ := Nat.exists_eq_add_of_lt hi
    have hpow : d * 16 ^ (i + k + 1) = 16 ^ i * (16 * (d * 16 ^ k)) := by ring
    rw [hpow, Nat.mul_add_div (by positivity), Nat.mul_add_mod]

/-- The digits of a line are those of its value. -/
theorem map_hexDigit_eq (line : List Char) :
    line.map (fun c => (hexDigit? c).getD 0) =
      (List.range line.length).reverse.map (fun i => hexValue line / 16 ^ i % 16) := by
  induction line with
  | nil => rfl
  | cons c cs ih =>
    obtain ⟨hhead, hbelow⟩ := hexDigit_at (hexDigit?_getD_lt c) (hexValue_lt cs)
    have htail : (List.range cs.length).reverse.map (fun i => hexValue (c :: cs) / 16 ^ i % 16) =
        (List.range cs.length).reverse.map (fun i => hexValue cs / 16 ^ i % 16) :=
      List.map_congr_left fun i hi => hbelow i (List.mem_range.1 (List.mem_reverse.1 hi))
    rw [List.length_cons, List.range_succ, List.reverse_append, List.reverse_singleton, List.singleton_append,
      List.map_cons, List.map_cons, htail, ih]
    exact congrArg (· :: _) hhead.symm

theorem map_toLower_formatHex {line : List Char} {w : Word} (h : parseHex line = .ok w) :
    (formatHex w).map Char.toLower = line.map Char.toLower := by
  obtain ⟨hlen, hdig, hval⟩ := (parseHex_eq_ok_iff line w).1 h
  calc (formatHex w).map Char.toLower
      = ((List.range line.length).reverse.map (fun i => hexValue line / 16 ^ i % 16)).map
          (fun d => (hexChar d).toLower) := by
        rw [← hval, hlen, formatHex_eq_map, List.map_map, List.map_map]; rfl
    _ = (line.map (fun c => (hexDigit? c).getD 0)).map (fun d => (hexChar d).toLower) := by rw [map_hexDigit_eq]
    _ = line.map Char.toLower := by
        rw [List.map_map]
        exact List.map_congr_left fun c hc => toLower_hexChar (hdig c hc)

/-- Settles O43, formatting first and parsing first. -/
theorem hexRoundTrip : Obligations.HexRoundTrip :=
  ⟨parseHex_formatHex, fun _ _ => map_toLower_formatHex⟩

/-- Settles O29: the formatter's text holds no line feed and ends in no carriage return, so it is the next line, and
it parses to the word. -/
theorem placedWordIsTheNextWord : Obligations.PlacedWordIsTheNextWord := by
  intro s w hh he
  have hchar {c : Char} (hc : hexDigit? c = none) : c ∉ formatHex w := by
    intro hm
    obtain ⟨d, hd, rfl⟩ := hexChar_isHexDigit hm
    rw [hexDigit?_hexChar d hd] at hc
    cases hc
  have hline : readLine (s.withFetchWord 32 w.toNat).input = .line (formatHex w) s.input := by
    have hw : BitVec.ofNat 32 (w.toNat % 2 ^ 32) = w := by
      rw [Nat.mod_eq_of_lt w.isLt, BitVec.ofNat_toNat, BitVec.setWidth_eq]
    have hcr : (formatHex w).getLast? ≠ some '\r' := fun h => hchar (by decide) (List.mem_of_getLast? h)
    rw [State.withFetchWord, hw, State.setInput_input, Input.placeWord,
      readLine_append_lineFeed _ _ (hchar (by decide)), stripCr_of_getLast?_ne hcr]
  exact step_of_word hh he hline (parseHex_formatHex w)

end Sys2Proof.Machine

/-! ## Decimal integers (43_syscall.md R172, 60_exceptions.md R225) -/

namespace Sys2Proof.Machine

/-! ### Decimal digits -/

/-- The character of a decimal digit. -/
def decChar (d : Nat) : Char := Char.ofNat (0x30 + d)

/-- The value of decimal digits that follow `acc`, the most significant first. -/
def decValue (acc : Nat) (digits : List Nat) : Nat := digits.foldl (fun acc d => 10 * acc + d) acc

/-- The text of one or more decimal digits. -/
structure Decimal (digits : List Nat) (text : List Char) : Prop where
  text_eq  : text = digits.map decChar
  ne_nil   : digits ≠ []
  lt_ten   : ∀ d ∈ digits, d < 10

theorem decValue_append_singleton (acc : Nat) (digits : List Nat) (d : Nat) :
    decValue acc (digits ++ [d]) = 10 * decValue acc digits + d := by
  simp [decValue]

theorem decDigit?_decChar : ∀ d < 10, decDigit? (decChar d) = some d := by decide

theorem decChar_ne : ∀ d < 10, decChar d ≠ '+' ∧ decChar d ≠ '-' ∧ isBlank (decChar d) = false := by decide

theorem eq_zero_of_decChar : ∀ d < 10, decChar d = '0' → d = 0 := by decide

theorem decDigit?_eq_some {c : Char} {d : Nat} (h : decDigit? c = some d) : d < 10 ∧ c = decChar d := by
  unfold decDigit? at h
  split_ifs at h with hc
  obtain rfl := Option.some.inj h
  refine ⟨by omega, ?_⟩
  rw [decChar, show 0x30 + (c.toNat - 0x30) = c.toNat by omega, Char.ofNat_toNat]

theorem decValue?_map_decChar {digits : List Nat} (h : ∀ d ∈ digits, d < 10) (acc : Nat) :
    decValue? acc (digits.map decChar) = some (decValue acc digits) := by
  induction digits generalizing acc with
  | nil => rfl
  | cons d ds ih =>
    obtain ⟨hd, hds⟩ := List.forall_mem_cons.1 h
    simp only [List.map_cons, decValue?, decDigit?_decChar d hd]
    exact ih hds (10 * acc + d)

theorem exists_digits_of_decValue? {cs : List Char} {acc n : Nat} (h : decValue? acc cs = some n) :
    ∃ digits : List Nat, cs = digits.map decChar ∧ ∀ d ∈ digits, d < 10 := by
  induction cs generalizing acc with
  | nil => exact ⟨[], rfl, by simp⟩
  | cons c cs ih =>
    cases hc : decDigit? c with
    | none => simp [decValue?, hc] at h
    | some d =>
      obtain ⟨hd, rfl⟩ := decDigit?_eq_some hc
      simp only [decValue?, hc] at h
      obtain ⟨ds, rfl, hds⟩ := ih h
      exact ⟨d :: ds, rfl, List.forall_mem_cons.2 ⟨hd, hds⟩⟩

theorem Decimal.parseDigits_eq {digits : List Nat} {text : List Char} (h : Decimal digits text) :
    parseDigits text = some (decValue 0 digits) := by
  obtain ⟨rfl, hne, hlt⟩ := h
  rw [parseDigits, if_neg (by simpa using hne), decValue?_map_decChar hlt]

theorem exists_decimal_of_parseDigits {text : List Char} {n : Nat} (h : parseDigits text = some n) :
    ∃ digits, Decimal digits text ∧ n = decValue 0 digits := by
  unfold parseDigits at h
  split_ifs at h with hne
  obtain ⟨digits, htext, hlt⟩ := exists_digits_of_decValue? h
  have hd : Decimal digits text := ⟨htext, by rintro rfl; exact hne htext, hlt⟩
  rw [htext, decValue?_map_decChar hlt] at h
  exact ⟨digits, hd, (Option.some.inj h).symm⟩

/-! ### The sign -/

/-- The value of `n` after an optional sign. -/
def signedValue (sign : List Char) (n : Nat) : Int := (if sign = ['-'] then -1 else 1) * n

/-- The text is an optional sign and the digits after it, with the value `v` (R225). -/
def Signed (sign : List Char) (digits : List Nat) (v : Int) (text : List Char) : Prop :=
  text = sign ++ digits.map decChar ∧ (sign = [] ∨ sign = ['+'] ∨ sign = ['-']) ∧
    Decimal digits (digits.map decChar) ∧ v = signedValue sign (decValue 0 digits)

/-- A sign in front of a text that starts with none is the sign `parseSigned` reads. -/
theorem parseSigned_append {sign rest : List Char} (hsign : sign = [] ∨ sign = ['+'] ∨ sign = ['-'])
    (hp : rest.head? ≠ some '+') (hm : rest.head? ≠ some '-') :
    parseSigned (sign ++ rest) = (parseDigits rest).map (signedValue sign) := by
  rcases hsign with rfl | rfl | rfl
  · rw [List.nil_append]
    unfold parseSigned
    split
    · exact absurd rfl hp
    · exact absurd rfl hm
    · cases parseDigits rest <;> simp [signedValue]
  · simp only [List.singleton_append, parseSigned]
    cases parseDigits rest <;> simp [signedValue]
  · simp only [List.singleton_append, parseSigned]
    cases parseDigits rest <;> simp [signedValue]

/-- What `parseSigned` reads is some sign and the digits after it. -/
theorem parseSigned_eq (text : List Char) :
    ∃ sign rest, text = sign ++ rest ∧ (sign = [] ∨ sign = ['+'] ∨ sign = ['-']) ∧
      parseSigned text = (parseDigits rest).map (signedValue sign) := by
  unfold parseSigned
  split
  · rename_i cs
    exact ⟨['+'], cs, rfl, by simp, by cases parseDigits cs <;> simp [signedValue]⟩
  · rename_i cs
    exact ⟨['-'], cs, rfl, by simp, by cases parseDigits cs <;> simp [signedValue]⟩
  · exact ⟨[], text, rfl, by simp, by cases parseDigits text <;> simp [signedValue]⟩

theorem parseSigned_eq_some_iff (text : List Char) (v : Int) :
    parseSigned text = some v ↔ ∃ sign digits, Signed sign digits v text := by
  constructor
  · intro h
    obtain ⟨sign, rest, rfl, hsign, heq⟩ := parseSigned_eq text
    obtain ⟨n, hn, rfl⟩ := Option.map_eq_some_iff.1 (heq.symm.trans h)
    obtain ⟨digits, hd, rfl⟩ := exists_decimal_of_parseDigits hn
    exact ⟨sign, digits, by rw [hd.text_eq], hsign, hd.text_eq ▸ hd, rfl⟩
  · rintro ⟨sign, digits, rfl, hsign, hd, rfl⟩
    obtain ⟨d, ds, rfl⟩ := List.exists_cons_of_ne_nil hd.ne_nil
    obtain ⟨hp, hm, _⟩ := decChar_ne d (hd.lt_ten d List.mem_cons_self)
    rw [parseSigned_append hsign (by simpa using hp) (by simpa using hm), hd.parseDigits_eq, Option.map_some]

/-! ### The blanks around it -/

theorem isBlank_iff (c : Char) : isBlank c = true ↔ c = ' ' ∨ c = '\t' := by
  simp [isBlank]

theorem exists_blanks_around (text : List Char) :
    ∃ left right, text = left ++ stripBlanks text ++ right ∧ ∀ c ∈ left ++ right, isBlank c = true := by
  have hmid : text.dropWhile isBlank = stripBlanks text ++ (text.dropWhile isBlank).rtakeWhile isBlank :=
    List.rdropWhile_append_rtakeWhile.symm
  refine ⟨text.takeWhile isBlank, (text.dropWhile isBlank).rtakeWhile isBlank, ?_, ?_⟩
  · rw [List.append_assoc, ← hmid, List.takeWhile_append_dropWhile]
  · exact List.forall_mem_append.2 ⟨fun _ => List.mem_takeWhile_imp, fun _ => List.mem_rtakeWhile_imp⟩

/-- Blanks in front of a text that starts with none are dropped. -/
theorem dropWhile_isBlank_append {left core : List Char} (right : List Char) (hl : ∀ c ∈ left, isBlank c = true)
    (hne : core ≠ []) (hc : ∀ c ∈ core, isBlank c = false) :
    (left ++ (core ++ right)).dropWhile isBlank = core ++ right := by
  obtain ⟨c, cs, rfl⟩ := List.exists_cons_of_ne_nil hne
  rw [List.dropWhile_append_of_pos hl, List.cons_append, List.dropWhile_cons_of_neg (by simp [hc c])]

theorem stripBlanks_append {left core right : List Char} (hb : ∀ c ∈ left ++ right, isBlank c = true)
    (hne : core ≠ []) (hc : ∀ c ∈ core, isBlank c = false) : stripBlanks (left ++ core ++ right) = core := by
  obtain ⟨hl, hr⟩ := List.forall_mem_append.1 hb
  have hrev : (right.reverse ++ core.reverse).dropWhile isBlank = core.reverse := by
    simpa using dropWhile_isBlank_append (left := right.reverse) (core := core.reverse) [] (by simpa using hr)
      (by simpa using hne) (by simpa using hc)
  rw [stripBlanks, List.append_assoc, dropWhile_isBlank_append right hl hne hc, List.reverse_append, hrev,
    List.reverse_reverse]

/-! ### The integer line -/

theorem Signed.ne_nil {sign : List Char} {digits : List Nat} {v : Int} {text : List Char}
    (h : Signed sign digits v text) : text ≠ [] := by
  obtain ⟨rfl, _, hd, _⟩ := h
  simp [hd.ne_nil]

theorem Signed.not_isBlank {sign : List Char} {digits : List Nat} {v : Int} {text : List Char}
    (h : Signed sign digits v text) : ∀ c ∈ text, isBlank c = false := by
  obtain ⟨rfl, hsign, hd, _⟩ := h
  refine List.forall_mem_append.2 ⟨?_, List.forall_mem_map.2 fun d hdm => (decChar_ne d (hd.lt_ten d hdm)).2.2⟩
  rcases hsign with rfl | rfl | rfl <;> simp [isBlank]

/-- Settles O45: blanks, then what `parseSigned` reads, then blanks. -/
theorem integerLineSyntax : Obligations.IntegerLineSyntax := by
  intro text v
  rw [parseInt_eq_some_iff, parseSigned_eq_some_iff]
  constructor
  · rintro ⟨⟨sign, digits, hs, hsign, hd, hv⟩, hlo, hhi⟩
    obtain ⟨left, right, htext, hb⟩ := exists_blanks_around text
    refine ⟨left, right, sign, digits, htext.trans ?_, fun c hc => (isBlank_iff c).1 (hb c hc), hsign, hd.ne_nil,
      hd.lt_ten, hv, hlo, hhi⟩
    rw [hs, ← List.append_assoc left]
    rfl
  · rintro ⟨left, right, sign, digits, rfl, hb, hsign, hne, hlt, hv, hlo, hhi⟩
    have hs : Signed sign digits v (sign ++ digits.map decChar) := ⟨rfl, hsign, ⟨rfl, hne, hlt⟩, hv⟩
    refine ⟨⟨sign, digits, ?_⟩, hlo, hhi⟩
    have hstrip := stripBlanks_append (fun c hc => (isBlank_iff c).2 (hb c hc)) hs.ne_nil hs.not_isBlank
    rw [← List.append_assoc] at hstrip
    exact hstrip.symm ▸ hs

/-! ### The text of a printed integer -/

/-- The digits of a number are its decimal text, without a leading zero unless it is 0. -/
theorem decimalDigits_spec {fuel n : Nat} (h : n < fuel) :
    ∃ digits, Decimal digits (decimalDigits fuel n) ∧ decValue 0 digits = n ∧ (n ≠ 0 → digits.head? ≠ some 0) := by
  induction fuel generalizing n with
  | zero => omega
  | succ fuel ih =>
    unfold decimalDigits
    split_ifs with hn
    · exact ⟨[n], ⟨rfl, by simp, by simpa using hn⟩, by simp [decValue], by simp⟩
    · obtain ⟨ds, ⟨htext, hne, hlt⟩, hval, hhead⟩ := ih (n := n / 10) (by omega)
      refine ⟨ds ++ [n % 10], ⟨by simp [htext, decChar], by simp, ?_⟩, ?_, fun _ => ?_⟩
      · exact List.forall_mem_append.2 ⟨hlt, by simp; omega⟩
      · rw [decValue_append_singleton, hval]; omega
      · rw [List.head?_append_of_ne_nil _ hne]; exact hhead (by omega)

/-- The text of an integer: `-` before a negative one, and the digits of its absolute value. -/
theorem renderInt_spec (v : Int) :
    ∃ digits, Signed (if v < 0 then ['-'] else []) digits v (renderInt v) ∧ (v ≠ 0 → digits.head? ≠ some 0) := by
  obtain ⟨digits, hd, hval, hhead⟩ := decimalDigits_spec (Nat.lt_succ_self v.natAbs)
  refine ⟨digits, ?_, fun h => hhead (Int.natAbs_ne_zero.2 h)⟩
  have hd' : Decimal digits (digits.map decChar) := hd.text_eq ▸ hd
  unfold renderInt
  split_ifs with hv
  · exact ⟨by rw [hd.text_eq]; rfl, .inr (.inr rfl), hd', by rw [hval, signedValue, if_pos rfl]; omega⟩
  · exact ⟨hd.text_eq, .inl rfl, hd', by rw [hval, signedValue, if_neg (by simp)]; omega⟩

theorem parseInt_of_signed {sign : List Char} {digits : List Nat} {v : Int} {text : List Char}
    (h : Signed sign digits v text) (hlo : -(2 ^ 31) ≤ v) (hhi : v < 2 ^ 31) : parseInt text = some v := by
  have hstrip : stripBlanks text = text := by
    simpa using stripBlanks_append (left := []) (right := []) (by simp) h.ne_nil h.not_isBlank
  rw [parseInt_eq_some_iff, hstrip, parseSigned_eq_some_iff]
  exact ⟨⟨sign, digits, h⟩, hlo, hhi⟩

/-- Settles O46: the text is a sign exactly for a negative integer, and digits that start with no 0 for any but 0. -/
theorem printedIntegerReadsBack : Obligations.PrintedIntegerReadsBack := by
  intro v hlo hhi
  obtain ⟨digits, hs, hhead⟩ := renderInt_spec v
  refine ⟨parseInt_of_signed hs hlo hhi, ?_, fun hv => ?_, by rintro rfl; rfl⟩
  all_goals
    obtain ⟨htext, _, hd, _⟩ := hs
    obtain ⟨d, ds, rfl⟩ := List.exists_cons_of_ne_nil hd.ne_nil
    have hd10 := hd.lt_ten d List.mem_cons_self
    obtain ⟨_, hminus, _⟩ := decChar_ne d hd10
    rw [htext]
  · split_ifs with h <;> simp [h, hminus]
  · have hz : decChar d ≠ '0' := fun h0 => hhead hv (by simpa using eq_zero_of_decChar d hd10 h0)
    split_ifs <;> simp [hminus, hz]

end Sys2Proof.Machine
